-- ==== Sys2Proof/Word.lean ====
section
/-! DEFINITION. The word and byte types (R4, R7, R8 of 00_scope.md, R108 of 40_primitives_constants.md). -/

namespace Sys2Proof

/-- A 32-bit unsigned word (R4). Its addition is `BitVec`'s own, which is addition modulo 2^32 (R108). -/
abbrev Word := BitVec 32

/-- A byte: 8 unsigned bits (R8). -/
abbrev Byte := BitVec 8

end Sys2Proof
end

