-- ==== Sys2Proof/Syntax.lean ====
section
/-! DEFINITION. The seven commands, one constructor for each row of spec/opcode_table.json (R83 of 30_encoding.md). -/

namespace Sys2Proof

/-- A command. `clen` is the CLEN operand in bytes (R82): the length of the final chunk for PAD and FINAL, and the
number of bytes the host read into BLK for CHUNK. The encoding gives it seven bits; `Instr.wellFormed` says so. -/
inductive Instr where
  /-- R163 -/
  | init
  /-- R164 -/
  | compress
  /-- R144 -/
  | pad (clen : Nat)
  /-- R165 -/
  | final (clen : Nat)
  /-- R221 -/
  | format
  /-- R192 -/
  | start
  /-- R193 to R195 -/
  | chunk (clen : Nat)
  deriving DecidableEq, Repr

end Sys2Proof
end

