-- ==== Sys2Proof/WellFormed.lean ====
section
/-! DEFINITION. Which commands the encoding can express (R82 of 30_encoding.md). -/

namespace Sys2Proof

/-- CLEN is "an unsigned 7-bit immediate ... in the range 0..127" (R82). The values 65..127 are well formed:
they "decode as the named command and then raise CONTRACT". -/
abbrev clenFits (clen : Nat) : Prop := clen < 128

/-- Every operand of the command fits its field. -/
def Instr.wellFormed : Instr → Bool
  | .init => true
  | .compress => true
  | .pad clen => decide (clenFits clen)
  | .final clen => decide (clenFits clen)
  | .format => true
  | .start => true
  | .chunk clen => decide (clenFits clen)

end Sys2Proof
end

