-- ==== Sys2Proof/Decode.lean ====
section
/-! DEFINITION. Decoding a command word, and the encoder (R81 to R86 of 30_encoding.md). -/

namespace Sys2Proof

/-- `OP = v[3:0]` (R81). -/
def opField (v : Word) : BitVec 4 := v.extractLsb' 0 4

/-- `CLEN = v[10:4]` (R81). -/
def clenField (v : Word) : BitVec 7 := v.extractLsb' 4 7

/-- `RSVD = v[31:11]` (R81). -/
def rsvdField (v : Word) : BitVec 21 := v.extractLsb' 11 21

/-- Why a word is illegal: the three kinds of R85. -/
inductive DecodeError where
  /-- OP = 0x0 or OP in 0x8..0xF. -/
  | reservedOpcode (op : BitVec 4)
  /-- RSVD ≠ 0. -/
  | reservedBits (rsvd : BitVec 21)
  /-- INIT, COMPRESS, FORMAT or START with CLEN ≠ 0. -/
  | operandNotZero (op : BitVec 4) (clen : BitVec 7)
  deriving DecidableEq, Repr

/-- A command that takes no operand: its CLEN must be 0 (R83, R85). -/
def decodeFixed (i : Instr) (v : Word) : Except DecodeError Instr :=
  if clenField v = 0 then .ok i else .error (.operandNotZero (opField v) (clenField v))

/-- The decode of R84, without its ERR part (which `Machine.issue` holds). Total; an illegal word is rejected by
name. CLEN is zero-extended (R82, R10). -/
def decode (v : Word) : Except DecodeError Instr :=
  if rsvdField v ≠ 0 then .error (.reservedBits (rsvdField v))
  else match (opField v).toNat with
    | 1 => decodeFixed .init v
    | 2 => decodeFixed .compress v
    | 3 => .ok (.pad (clenField v).toNat)
    | 4 => .ok (.final (clenField v).toNat)
    | 5 => decodeFixed .format v
    | 6 => decodeFixed .start v
    | 7 => .ok (.chunk (clenField v).toNat)
    | _ => .error (.reservedOpcode (opField v))

/-- The opcode of a command (R83). -/
def Instr.opcode : Instr → BitVec 4
  | .init => 0x1
  | .compress => 0x2
  | .pad _ => 0x3
  | .final _ => 0x4
  | .format => 0x5
  | .start => 0x6
  | .chunk _ => 0x7

/-- The CLEN field of a command: its operand, or 0 where it takes none (R83). -/
def Instr.clen : Instr → Nat
  | .init => 0
  | .compress => 0
  | .pad clen => clen
  | .final clen => clen
  | .format => 0
  | .start => 0
  | .chunk clen => clen

/-- The command word RSVD ‖ CLEN ‖ OP with RSVD = 0 (R81, R83). -/
def encode (i : Instr) : Word := (0 : BitVec 21) ++ BitVec.ofNat 7 i.clen ++ i.opcode

/-- A row of the opcode table: a word `v` is of the row when `v &&& mask = pattern`. -/
structure OpcodeRow where
  mnemonic : String
  pattern : Word
  mask : Word
  deriving DecidableEq, Repr

/-- Does the word belong to the row? -/
def OpcodeRow.covers (r : OpcodeRow) (v : Word) : Bool := v &&& r.mask == r.pattern

/-- spec/opcode_table.json: the `match` and `mask` of each row. -/
def opcodeTable : List OpcodeRow :=
  [ ⟨"INIT", 0x00000001, 0xFFFFFFFF⟩,
    ⟨"COMPRESS", 0x00000002, 0xFFFFFFFF⟩,
    ⟨"PAD", 0x00000003, 0xFFFFF80F⟩,
    ⟨"FINAL", 0x00000004, 0xFFFFF80F⟩,
    ⟨"FORMAT", 0x00000005, 0xFFFFFFFF⟩,
    ⟨"START", 0x00000006, 0xFFFFFFFF⟩,
    ⟨"CHUNK", 0x00000007, 0xFFFFF80F⟩ ]

/-- The mnemonic of a command (R83). -/
def Instr.mnemonic : Instr → String
  | .init => "INIT"
  | .compress => "COMPRESS"
  | .pad _ => "PAD"
  | .final _ => "FINAL"
  | .format => "FORMAT"
  | .start => "START"
  | .chunk _ => "CHUNK"

/-- The instruction the decoder reads from an instruction whose bits are `w`, of which the table gives `nbits`;
every bit above `nbits` is 0. A command word is one 32-bit word (R86), so nothing longer decodes. -/
def decodeTableWord (nbits w : Nat) : Option Instr :=
  if w % 2 ^ nbits < 2 ^ 32 then (decode (BitVec.ofNat 32 (w % 2 ^ nbits))).toOption else none

end Sys2Proof
end

