-- ==== Sys2Proof/Machine/Primitives.lean ====
section
/-! DEFINITION. The primitives and constants of 40_primitives_constants.md and the byte-sequence notation of R8.
Every function is pure (R109); additions wrap modulo 2^32 (R108). -/

namespace Sys2Proof.Machine

/-- `BE32(s, i)`: the word whose most significant byte is `s[i]` (R8). -/
def be32 (s : List Byte) (i : Nat) : Word :=
  s.getD i 0 ++ s.getD (i + 1) 0 ++ s.getD (i + 2) 0 ++ s.getD (i + 3) 0

/-- The four bytes of a word, most significant first (R54). -/
def wordBytes (v : Word) : List Byte :=
  [v.extractLsb' 24 8, v.extractLsb' 16 8, v.extractLsb' 8 8, v.extractLsb' 0 8]

/-- `BE64bytes(L)`: the 8 bytes of `L`, most significant byte first (R8). -/
def be64Bytes (l : BitVec 64) : List Byte :=
  wordBytes (l.extractLsb' 32 32) ++ wordBytes (l.extractLsb' 0 32)

/-- `zeros(k)` (R8). -/
def zeros (k : Nat) : List Byte := List.replicate k 0

/-- `blk(s, j)`: bytes `s[64j .. 64j+63]` (R8). -/
def blk (s : List Byte) (j : Nat) : List Byte := (s.drop (64 * j)).take 64

/-- R100, for 1 ≤ n ≤ 31 (no other amount is used: D34, log entry 16). -/
def rotr (x : Word) (n : Nat) : Word := (x >>> n) ||| (x <<< (32 - n))

/-- R102 -/
def ch (x y z : Word) : Word := (x &&& y) ^^^ (~~~x &&& z)

/-- R103 -/
def maj (x y z : Word) : Word := (x &&& y) ^^^ (x &&& z) ^^^ (y &&& z)

/-- R104 -/
def bsig0 (x : Word) : Word := rotr x 2 ^^^ rotr x 13 ^^^ rotr x 22

/-- R105 -/
def bsig1 (x : Word) : Word := rotr x 6 ^^^ rotr x 11 ^^^ rotr x 25

/-- R106; `>>>` is the logical shift of R101. -/
def ssig0 (x : Word) : Word := rotr x 7 ^^^ rotr x 18 ^^^ (x >>> 3)

/-- R107; `>>>` is the logical shift of R101. -/
def ssig1 (x : Word) : Word := rotr x 17 ^^^ rotr x 19 ^^^ (x >>> 10)

/-- The round constants K[0..63] (R110), a row of the spec's table a line. Log entry 13. -/
def roundConstants : List Word :=
  [0x428a2f98, 0x71374491, 0xb5c0fbcf, 0xe9b5dba5, 0x3956c25b, 0x59f111f1, 0x923f82a4, 0xab1c5ed5] ++
  [0xd807aa98, 0x12835b01, 0x243185be, 0x550c7dc3, 0x72be5d74, 0x80deb1fe, 0x9bdc06a7, 0xc19bf174] ++
  [0xe49b69c1, 0xefbe4786, 0x0fc19dc6, 0x240ca1cc, 0x2de92c6f, 0x4a7484aa, 0x5cb0a9dc, 0x76f988da] ++
  [0x983e5152, 0xa831c66d, 0xb00327c8, 0xbf597fc7, 0xc6e00bf3, 0xd5a79147, 0x06ca6351, 0x14292967] ++
  [0x27b70a85, 0x2e1b2138, 0x4d2c6dfc, 0x53380d13, 0x650a7354, 0x766a0abb, 0x81c2c92e, 0x92722c85] ++
  [0xa2bfe8a1, 0xa81a664b, 0xc24b8b70, 0xc76c51a3, 0xd192e819, 0xd6990624, 0xf40e3585, 0x106aa070] ++
  [0x19a4c116, 0x1e376c08, 0x2748774c, 0x34b0bcb5, 0x391c0cb3, 0x4ed8aa4a, 0x5b9cca4f, 0x682e6ff3] ++
  [0x748f82ee, 0x78a5636f, 0x84c87814, 0x8cc70208, 0x90befffa, 0xa4506ceb, 0xbef9a3f7, 0xc67178f2]

/-- K[t] (R110), for t in 0..63. -/
def roundConstant (t : Nat) : Word := roundConstants.getD t 0

/-- The HashState: "ordered sequence of 8 unsigned 32-bit words" (R5, R22). -/
abbrev HashState := Vector Word 8

/-- The initial hash value H0[0..7] (R111). Log entry 13. -/
def initialHash : HashState :=
  #v[0x6a09e667, 0xbb67ae85, 0x3c6ef372, 0xa54ff53a, 0x510e527f, 0x9b05688c, 0x1f83d9ab, 0x5be0cd19]

end Sys2Proof.Machine
end

