-- ==== Sys2Proof/Machine/Algorithm.lean ====
section
/-! DEFINITION. The pure functions of the units: Schedule and Compress (R161, R162 of 42_compression.md), Pad
(R142 of 41_padding.md), Hex (R220 of 44_digest_formatter.md), and the padded message of R197 (43_block_driver.md). -/

namespace Sys2Proof.Machine

/-- The next schedule word, for t = |w| in 16..63 (R161). -/
def nextScheduleWord (w : List Word) : Word :=
  let t := w.length
  ssig1 (w.getD (t - 2) 0) + w.getD (t - 7) 0 + ssig0 (w.getD (t - 15) 0) + w.getD (t - 16) 0

/-- `n` further words of the schedule. -/
def extendSchedule : Nat → List Word → List Word
  | 0, w => w
  | n + 1, w => extendSchedule n (w ++ [nextScheduleWord w])

/-- The 16 big-endian words of a block (R161, step 1). -/
def parseBlock (b : List Byte) : List Word := (List.range 16).map fun t => be32 b (4 * t)

/-- `Schedule(B) = W[0..63]` (R161). -/
def schedule (b : List Byte) : List Word := extendSchedule 48 (parseBlock b)

/-- The working variables a..h of the rounds (R36, R162). -/
structure Working where
  a : Word
  b : Word
  c : Word
  d : Word
  e : Word
  f : Word
  g : Word
  h : Word
  deriving DecidableEq, Repr

/-- "Initialize working variables a..h from the current HashState" (R162). -/
def Working.ofHash (hs : HashState) : Working := ⟨hs[0], hs[1], hs[2], hs[3], hs[4], hs[5], hs[6], hs[7]⟩

/-- One round with K[t] = k and W[t] = w; the assignment is simultaneous (R162). -/
def Working.round (v : Working) (k w : Word) : Working :=
  let t1 := v.h + bsig1 v.e + ch v.e v.f v.g + k + w
  let t2 := bsig0 v.a + maj v.a v.b v.c
  ⟨t1 + t2, v.a, v.b, v.c, v.d + t1, v.e, v.f, v.g⟩

/-- The first `n` rounds, t in 0..n-1. -/
def Working.rounds (w : List Word) (v : Working) : Nat → Working
  | 0 => v
  | n + 1 => (Working.rounds w v n).round (roundConstant n) (w.getD n 0)

/-- The element-wise sum of the working variables and the old HashState (R162). -/
def Working.addTo (v : Working) (hs : HashState) : HashState :=
  #v[v.a + hs[0], v.b + hs[1], v.c + hs[2], v.d + hs[3], v.e + hs[4], v.f + hs[5], v.g + hs[6], v.h + hs[7]]

/-- `Compress(H, B)` (R160, R162). -/
def compress (hs : HashState) (b : List Byte) : HashState :=
  ((Working.ofHash hs).rounds (schedule b) 64).addTo hs

/-- Compress every 64-byte block of `p` in order, block 0 first (R165, R195). -/
def compressBlocks (hs : HashState) (p : List Byte) : HashState :=
  (List.range (p.length / 64)).foldl (fun h j => compress h (blk p j)) hs

/-- `k = (55 - c) mod 64`, the mathematical remainder (R142, R7). -/
def zeroFill (c : Nat) : Nat := ((55 - (c : Int)) % 64).toNat

/-- `Pad(s, L)` (R142); defined by the spec on |s| ≤ 64 (R140). -/
def pad (s : List Byte) (l : BitVec 64) : List Byte :=
  s ++ [0x80] ++ zeros (zeroFill s.length) ++ be64Bytes l

/-- The ASCII code of a lowercase hexadecimal digit (R220). Log entry 13. -/
def hexDigit (v : BitVec 4) : Byte :=
  if v.toNat ≤ 9 then 0x30 + v.setWidth 8 else 0x61 + (v.setWidth 8 - 10)

/-- The eight digits of a word, most significant nibble first (R220). -/
def hexWord (v : Word) : List Byte :=
  (List.range 8).map fun j => hexDigit (v.extractLsb' (28 - 4 * j) 4)

/-- `Hex(H)`: 64 characters, H[0] first (R220). -/
def hex (hs : HashState) : List Byte := hs.toList.flatMap hexWord

/-- The padded message P = M ++ [0x80] ++ zeros((55 - N) mod 64) ++ BE64bytes(8N) of R197. -/
def paddedMessage (m : List Byte) : List Byte :=
  m ++ [0x80] ++ zeros (zeroFill m.length) ++ be64Bytes (BitVec.ofNat 64 (8 * m.length))

/-- The final HashState of a message: the fold of Compress over the blocks of its padded message from H0 (R197). -/
def messageHash (m : List Byte) : HashState := compressBlocks initialHash (paddedMessage m)

end Sys2Proof.Machine
end

