-- ==== Sys2Proof/Machine/State.lean ====
section
/-! DEFINITION. The state of one instance (R20 of 10_state.md), the host side of its window, its reset
(R270 of 70_reset_and_hazards.md), and the reasons a step can stop. -/

namespace Sys2Proof.Machine

/-- STATUS.ERR (R26, R241): the code of the first architected error since the last INIT or reset. The codes 6 and 7
are "never produced" and have no constructor (log entry 8). -/
inductive ErrCode where
  | none
  | inputTooLarge
  | ioError
  | contract
  | sequence
  | illegalCmd
  deriving DecidableEq, Repr

/-- STATUS.DRV (R27): the block driver's state. -/
inductive DrvState where
  | idle
  | read
  | done
  | error
  deriving DecidableEq, Repr

/-- STATUS.PADCNT (R30): the number of valid 64-byte blocks in PADBUF. 3 is "never produced" and has no constructor
(log entry 8). -/
inductive PadCount where
  | zero
  | one
  | two
  deriving DecidableEq, Repr

/-- The byte buffers of the window (LEN, BLK, PADBUF, DIGEST) by window offset: addresses strictly rising. An
address that is not listed is a byte nothing has written since reset: it holds no value (R38). That the written mark is
being listed is log entry 3. -/
abbrev Memory := List Host.Cell

/-- What a host access does: MemRead or MemWrite of R9. -/
inductive AccessKind where
  | read
  | write (v : Word)
  deriving DecidableEq, Repr

/-- One host access to this instance's window: who makes it, how many bytes wide it is, at which byte offset. -/
structure Access where
  host : Nat
  width : Nat
  offset : Nat
  kind : AccessKind
  deriving DecidableEq, Repr

/-- What the outside does to an instance: a host access (R61), or a platform reset (R270). -/
inductive Input where
  | access (a : Access)
  | reset
  deriving DecidableEq, Repr

/-- One instance. The first nine fields are the registers of R20; the last four are the model's own (INVENTORY.md). -/
structure State where
  /-- HREG[0..7] (R22) -/
  hreg : HashState
  /-- BLK, LEN, PADBUF and DIGEST with their written marks (R24, R25, R31, R32, R38) -/
  mem : Memory
  /-- STATUS.ERR (R26) -/
  err : ErrCode
  /-- STATUS.DRV (R27) -/
  drv : DrvState
  /-- STATUS.DV (R28) -/
  dv : Bool
  /-- STATUS.PADCNT (R30) -/
  padcnt : PadCount
  /-- STATUS.BUSY (R29) -/
  busy : Bool
  /-- REM (R33) -/
  rem : BitVec 64
  /-- DLEN (R34) -/
  dlen : BitVec 64
  /-- What the outside has issued and the block has not served, oldest first (log entry 1) -/
  inputs : List Input
  /-- The words host reads have returned, oldest first (log entry 2) -/
  reads : List Word
  /-- The host that drives this instance (R63, log entry 6) -/
  owner : Option Nat
  /-- The counter of the free value `Config.busyStatus` (log entry 7) -/
  freeReads : Nat
  deriving DecidableEq, Repr

/-- R270: HREG = H0, STATUS = 0, REM = DLEN = 0, every byte of BLK, LEN, PADBUF and DIGEST unwritten (no value: R38). -/
def State.reset : State where
  hreg := initialHash
  mem := []
  err := .none
  drv := .idle
  dv := false
  padcnt := .zero
  busy := false
  rem := 0
  dlen := 0
  inputs := []
  reads := []
  owner := none
  freeReads := 0

/-- The model faults of R247. All are safe: "A model fault errs toward unprovable". The state is the one before the
faulting access. -/
inductive Fault where
  /-- A bus error (R56): an access at a reserved offset. Raised by host accesses. Safe. -/
  | reservedOffset (offset : Nat)
  /-- A bus error (R56): a write to STATUS, PADW, DIGW or REM. Raised by host writes. Safe. -/
  | readOnlyWrite (offset : Nat)
  /-- A bus error (R51, R56): an access that is not 32 bits wide. Raised by host accesses. Safe. -/
  | wrongWidth (bytes : Nat)
  /-- A bus error (R51, R56): an offset that is not a multiple of 4. Raised by host accesses. Safe. -/
  | misaligned (offset : Nat)
  /-- An offset beyond the 0x200-byte window (R50), which addresses no register of this instance. Raised by host
  accesses. Safe (log entry 11). -/
  | outsideWindow (offset : Nat)
  /-- R38: a read, by the host or by a command, of a byte nothing has written since reset. `offset` is the first
  such byte. "The model refuses to guess it" (R38); `fault` is the treatment U7 and D32 give. Raised by host reads and
  by COMPRESS, PAD, FINAL, START and CHUNK. Safe. -/
  | unwrittenByte (offset : Nat)
  /-- R280: an access other than a STATUS read while BUSY = 1. Raised by host accesses. Safe. -/
  | accessWhileBusy
  /-- R63, U1: a second host drives this instance. Raised by host accesses. Safe. -/
  | secondHost (host : Nat)
  deriving DecidableEq, Repr

/-- Why the model gives no meaning. -/
inductive Refusal where
  /-- An instruction without a meaning. Raised by an arm of exec; no arm raises it now. Safe. -/
  | notModelled (mnemonic : String)
  /-- An address in no instance's window: "Only the 0x200-byte window is the block's" (R66). Raised by the platform
  layer's accesses, never by `step`. Safe (log entry 10). -/
  | noInstanceAt (address : Nat)
  deriving DecidableEq, Repr

/-- What a meaning answers. -/
abbrev Result := Host.Outcome State Fault Refusal

end Sys2Proof.Machine
end

