-- ==== Sys2Proof/Machine/Ops.lean ====
section
/-! DEFINITION. The named operations over the window's byte buffers and the registers, and raising an architected
error (R241 of 60_exceptions.md). -/

namespace Sys2Proof.Machine

/-! ### The window's layout (R53) -/

def cmdOffset : Nat := 0x000
def statusOffset : Nat := 0x004
def lenBase : Nat := 0x010
def hregBase : Nat := 0x020
def blkBase : Nat := 0x040
def padBase : Nat := 0x080
def digBase : Nat := 0x100
def rem0Offset : Nat := 0x140
def rem1Offset : Nat := 0x144
def windowSize : Nat := 0x200

/-- The window offsets that hold bytes of LEN, BLK, PADBUF or DIGEST (R53). -/
abbrev isBufferByte (a : Nat) : Prop := (0x010 ≤ a ∧ a < 0x020) ∨ (0x040 ≤ a ∧ a < 0x140)

/-! ### Byte buffers -/

/-- The canonical form: addresses strictly rising, so that equal memories are equal lists. -/
abbrev Memory.wf (m : Memory) : Prop := m.Pairwise fun x y => x.1 < y.1

/-- Only bytes of the four buffers are listed. -/
abbrev Memory.inBuffers (m : Memory) : Prop := ∀ cell ∈ m, isBufferByte cell.1

/-- The byte at a window offset; `none` is R38's unwritten mark. -/
def Memory.read : Memory → Nat → Option Byte
  | [], _ => none
  | (b, w) :: m, a => if a = b then some w else Memory.read m a

/-- Bytes listed at rising offsets from `a`. -/
def Memory.run (a : Nat) : List Byte → Memory
  | [] => []
  | v :: vs => (a, v) :: Memory.run (a + 1) vs

/-- Write bytes at rising offsets from `a` and set their written marks (R38): what was listed at those offsets is
replaced, the rest stays. -/
def Memory.writeBytes (m : Memory) (a : Nat) (bs : List Byte) : Memory :=
  m.filter (fun cell => cell.1 < a) ++ Memory.run a bs ++ m.filter (fun cell => a + bs.length ≤ cell.1)

/-- Read one byte: an unwritten one is a model fault (R38, R247). -/
def Memory.fetch (m : Memory) (a : Nat) : Except Fault Byte :=
  match m.read a with
  | some v => .ok v
  | none => .error (.unwrittenByte a)

/-- Read `n` bytes at rising offsets from `a`; the fault names the first unwritten one (log entry 17). -/
def Memory.fetchBytes (m : Memory) : Nat → Nat → Except Fault (List Byte)
  | _, 0 => .ok []
  | a, n + 1 =>
    match m.fetch a with
    | .error f => .error f
    | .ok v =>
      match Memory.fetchBytes m (a + 1) n with
      | .error f => .error f
      | .ok vs => .ok (v :: vs)

/-- A window word of a buffer: big-endian packing (R54). -/
def Memory.fetchWord (m : Memory) (a : Nat) : Except Fault Word :=
  match m.fetchBytes a 4 with
  | .error f => .error f
  | .ok bs => .ok (be32 bs 0)

/-! ### Register updates -/

def State.setHash (h : HashState) (s : State) : State := { s with hreg := h }
def State.setErr (e : ErrCode) (s : State) : State := { s with err := e }
def State.setDrv (d : DrvState) (s : State) : State := { s with drv := d }
def State.setDv (b : Bool) (s : State) : State := { s with dv := b }
def State.setPadcnt (n : PadCount) (s : State) : State := { s with padcnt := n }
def State.setRem (r : BitVec 64) (s : State) : State := { s with rem := r }
def State.setDlen (l : BitVec 64) (s : State) : State := { s with dlen := l }
def State.setInputs (is : List Input) (s : State) : State := { s with inputs := is }
def State.setOwner (h : Nat) (s : State) : State := { s with owner := some h }

/-- Write bytes into a byte buffer of the window. -/
def State.store (a : Nat) (bs : List Byte) (s : State) : State := { s with mem := s.mem.writeBytes a bs }

/-- A host read returns a word (R58). While BUSY = 1 the read is a STATUS read and uses up a free value (log
entry 7). -/
def State.returnRead (v : Word) (s : State) : State :=
  { s with reads := s.reads ++ [v], freeReads := if s.busy then s.freeReads + 1 else s.freeReads }

/-- The block count `n` as a PADCNT value; R143 gives n in {1, 2}. -/
def PadCount.ofBlocks : Nat → PadCount
  | 0 => .zero
  | 1 => .one
  | _ => .two

/-- `PADBUF[0..64n-1] <- p; PADBUF[64n..127] <- 0x00 each; PADCNT <- n` (R31, R144). -/
def State.putPadding (p : List Byte) (s : State) : State :=
  (s.store padBase (p ++ zeros (128 - p.length))).setPadcnt (.ofBlocks (p.length / 64))

/-- `DIGEST[0..63] <- Hex(H); DV <- 1` (R221, R195). -/
def State.putDigest (h : HashState) (s : State) : State := (s.store digBase (hex h)).setDv true

/-! ### Errors -/

/-- `raise Error(code)` (R241): ERR <- code, DRV <- ERROR, DV <- 0, and no other write. -/
def State.raise (code : ErrCode) (s : State) : State := ((s.setErr code).setDrv .error).setDv false

/-- A command that ends in an architected error: the machine goes on, with only the error state written (R9, R241). -/
def raised (code : ErrCode) (s : State) : Result := .next (s.raise code)

/-- "While ERR ≠ 0, every command except a well-formed INIT has no effect at all" (R240). -/
def whenErrorFree (s : State) (k : Result) : Result := if s.err = .none then k else .next s

/-- `if DRV == READ: raise Error(SEQUENCE)` (R242). -/
def unlessReading (s : State) (k : Result) : Result := if s.drv = .read then raised .sequence s else k

/-- A platform reset (R270) of an instance in any state: the registers of R20 take their reset values. What the model
keeps beside them stays (log entries 6 and 15). -/
def State.platformReset (s : State) : State :=
  { State.reset with inputs := s.inputs, reads := s.reads, owner := s.owner, freeReads := s.freeReads }

end Sys2Proof.Machine
end

