-- ==== Sys2Proof/Machine/Operands.lean ====
section
/-! DEFINITION. The operands commands read: LEN whole (R25), the bytes of BLK (R24), and the checks on them. -/

namespace Sys2Proof.Machine

/-- LEN = LEN3 ‖ LEN2 ‖ LEN1 ‖ LEN0, all 128 bits; an unwritten byte is a model fault (R25, R55, R38). -/
def fetchLen (m : Memory) : Except Fault (BitVec 128) :=
  match m.fetchWord lenBase, m.fetchWord (lenBase + 4), m.fetchWord (lenBase + 8), m.fetchWord (lenBase + 12) with
  | .ok l0, .ok l1, .ok l2, .ok l3 => .ok (l3 ++ l2 ++ l1 ++ l0)
  | .error f, _, _, _ => .error f
  | _, .error f, _, _ => .error f
  | _, _, .error f, _ => .error f
  | _, _, _, .error f => .error f

/-- `BLK[0..c-1]`; an unwritten byte is a model fault (R24, R38). -/
def fetchBlk (m : Memory) (c : Nat) : Except Fault (List Byte) := m.fetchBytes blkBase c

/-- `L = LEN`, then the rest of the command. -/
def withLen (s : State) (k : BitVec 128 → Result) : Result :=
  match fetchLen s.mem with
  | .error f => .fault f
  | .ok l => k l

/-- `s = BLK[0..c-1]`, then the rest of the command. -/
def withBlk (s : State) (c : Nat) (k : List Byte → Result) : Result :=
  match fetchBlk s.mem c with
  | .error f => .fault f
  | .ok bs => k bs

/-- `if L >= 2^64: raise Error(INPUT_TOO_LARGE)` (R243), then the rest with the length as 64 bits, `LEN[63:0]`. -/
def unlessTooLarge (l : BitVec 128) (s : State) (k : BitVec 64 → Result) : Result :=
  if 2 ^ 64 ≤ l.toNat then raised .inputTooLarge s else k (l.setWidth 64)

/-- `if c > 64: raise Error(CONTRACT)` for PAD and FINAL (R245), then the rest. -/
def unlessOverlong (c : Nat) (s : State) (k : Result) : Result :=
  if 64 < c then raised .contract s else k

/-- `e = min(64, REM)`: the number of bytes the driver is due (R193). -/
def bytesDue (s : State) : Nat := min 64 s.rem.toNat

end Sys2Proof.Machine
end

