-- ==== Sys2Proof/Machine/Compression.lean ====
section
/-! DEFINITION. The hash-state commands INIT, COMPRESS and FINAL (R163 to R165 of 42_compression.md). -/

namespace Sys2Proof.Machine

/-- INIT (R163): allowed in every driver state, and the only command that clears an error. -/
def execInit (s : State) : Result :=
  .next ((((((s.setHash initialHash).setErr .none).setDrv .idle).setDv false).setPadcnt .zero).setRem 0)

/-- COMPRESS (R164). -/
def execCompress (s : State) : Result :=
  whenErrorFree s <| unlessReading s <|
  withBlk s 64 fun b => .next (((s.setHash (compress s.hreg b)).setDv false).setDrv .idle)

/-- FINAL c (R165). -/
def execFinal (c : Nat) (s : State) : Result :=
  whenErrorFree s <| unlessReading s <| unlessOverlong c s <|
  withLen s fun l => unlessTooLarge l s fun l64 =>
  withBlk s c fun chunk =>
    let p := pad chunk l64
    .next ((((s.setHash (compressBlocks s.hreg p)).putPadding p).setDv false).setDrv .idle)

end Sys2Proof.Machine
end

