-- ==== Sys2Proof/Machine/Driver.lean ====
section
/-! DEFINITION. The block driver's commands START and CHUNK (R192 to R195 of 43_block_driver.md). -/

namespace Sys2Proof.Machine

/-- START (R192): "INPUT_TOO_LARGE ... before CONTRACT" (R248). -/
def execStart (s : State) : Result :=
  whenErrorFree s <| unlessReading s <|
  withLen s fun l => unlessTooLarge l s fun l64 =>
  if l64.toNat % 8 ≠ 0 then raised .contract s
  else .next (((((s.setHash initialHash).setDlen l64).setRem (l64 >>> 3)).setDv false).setDrv .read)

/-- CHUNK c, Direct (R194). -/
def chunkDirect (s : State) : Result :=
  withBlk s 64 fun b => .next ((s.setHash (compress s.hreg b)).setRem (s.rem - 64))

/-- CHUNK c, Last (R195). -/
def chunkLast (c : Nat) (s : State) : Result :=
  withBlk s c fun chunk =>
    let p := pad chunk s.dlen
    let h := compressBlocks s.hreg p
    .next (((((s.setHash h).putPadding p).setRem 0).putDigest h).setDrv .done)

/-- CHUNK c (R193): the checks, then the direct block or the last chunk. -/
def execChunk (c : Nat) (s : State) : Result :=
  whenErrorFree s <|
  if s.drv ≠ .read then raised .sequence s
  else if c < bytesDue s then raised .ioError s
  else if bytesDue s < c then raised .contract s
  else if 64 < s.rem.toNat then chunkDirect s
  else chunkLast c s

end Sys2Proof.Machine
end

