-- ==== Sys2Proof/Machine/Formatter.lean ====
section
/-! DEFINITION. The FORMAT command (R221 of 44_digest_formatter.md). -/

namespace Sys2Proof.Machine

/-- FORMAT (R221). -/
def execFormat (s : State) : Result :=
  whenErrorFree s <| unlessReading s <| .next (s.putDigest s.hreg)

end Sys2Proof.Machine
end

