-- ==== Sys2Proof/Machine/Padding.lean ====
section
/-! DEFINITION. The PAD command (R144 of 41_padding.md). -/

namespace Sys2Proof.Machine

/-- PAD c (R144). -/
def execPad (c : Nat) (s : State) : Result :=
  whenErrorFree s <| unlessReading s <| unlessOverlong c s <|
  withLen s fun l => unlessTooLarge l s fun l64 =>
  withBlk s c fun chunk => .next (s.putPadding (pad chunk l64))

end Sys2Proof.Machine
end

