-- ==== Sys2Proof/Machine/Dispatch.lean ====
section
/-! DEFINITION. Every command's meaning, one arm per constructor of Instr (R83 of 30_encoding.md). -/

namespace Sys2Proof.Machine

def exec (i : Instr) (s : State) : Host.Outcome State Fault Refusal :=
  match i with
  | .init => Sys2Proof.Machine.execInit s
  | .compress => Sys2Proof.Machine.execCompress s
  | .pad c => Sys2Proof.Machine.execPad c s
  | .final c => Sys2Proof.Machine.execFinal c s
  | .format => Sys2Proof.Machine.execFormat s
  | .start => Sys2Proof.Machine.execStart s
  | .chunk c => Sys2Proof.Machine.execChunk c s

end Sys2Proof.Machine
end

