-- ==== Sys2Proof/Config.lean ====
section
/-! DEFINITION. What the spec leaves to an implementation, and the free values (93_implementation_defined.md §2).
`BASE` and `N_INST` (U12, U13) are the data of Machine/Platform.lean: each instance carries its base. -/

namespace Sys2Proof.Config

/-- Free value of U10: what the STATUS fields other than BUSY read as while BUSY = 1 (R280). It is applied to
`State.freeReads`, which every such read advances, so that each read may answer another value. Log entry 7. -/
opaque busyStatus : Nat → Word

/-- The parameters `LAT_<command>` of U11 and R284, indexed by the command's opcode. No definition reads them:
"No rule of this spec depends on them". Log entry 9. -/
opaque latency : BitVec 4 → Nat

end Sys2Proof.Config
end

