-- ==== Sys2Proof/Machine/Flags.lean ====
section
/-! DEFINITION. The STATUS register as the host reads it (10_state.md §4, R26 to R30). -/

namespace Sys2Proof.Machine

/-- The code of an error (R241). -/
def ErrCode.bits : ErrCode → BitVec 3
  | .none => 0
  | .inputTooLarge => 1
  | .ioError => 2
  | .contract => 3
  | .sequence => 4
  | .illegalCmd => 5

/-- The value of STATUS.DRV (R27). -/
def DrvState.bits : DrvState → BitVec 2
  | .idle => 0
  | .read => 1
  | .done => 2
  | .error => 3

/-- The number of padded blocks (R30). -/
def PadCount.blocks : PadCount → Nat
  | .zero => 0
  | .one => 1
  | .two => 2

/-- STATUS with BUSY = 0, from the most significant bit down: reserved 31:17, BUSY, reserved 15:10, PADCNT 9:8,
reserved 7, DV 6, DRV 5:4, reserved 3, ERR 2:0. -/
def statusWord (s : State) : Word :=
  (0 : BitVec 15) ++ BitVec.ofBool s.busy ++ (0 : BitVec 6) ++ BitVec.ofNat 2 s.padcnt.blocks ++
    (0 : BitVec 1) ++ BitVec.ofBool s.dv ++ s.drv.bits ++ (0 : BitVec 1) ++ s.err.bits

/-- The bits of the fields ERR, DRV, DV and PADCNT. -/
def statusFieldMask : Word := 0x00000377

/-- The BUSY bit. -/
def statusBusyBit : Word := 0x00010000

/-- A STATUS read. While BUSY = 1 "the other STATUS fields ... are unspecified" (R280, U10): they are the free value
`Config.busyStatus`; the reserved bits still read 0 (R30). Log entry 7. -/
def statusRead (s : State) : Word :=
  if s.busy then (Config.busyStatus s.freeReads &&& statusFieldMask) ||| statusBusyBit else statusWord s

end Sys2Proof.Machine
end

