-- ==== Sys2Proof/Machine/Window.lean ====
section
/-! DEFINITION. The register window: what each host access does (R50 to R58 of 20_memory.md), and issuing a command
(R80, R84 of 30_encoding.md). -/

namespace Sys2Proof.Machine

/-- The registers of the window (R53). -/
inductive WindowReg where
  | cmd
  | status
  | len (i : Fin 4)
  | hreg (i : Fin 8)
  | blkw (i : Fin 16)
  | padw (i : Fin 32)
  | digw (i : Fin 16)
  | rem0
  | rem1
  deriving DecidableEq, Repr

/-- The byte offset of a register (R53). -/
def WindowReg.offset : WindowReg → Nat
  | .cmd => cmdOffset
  | .status => statusOffset
  | .len i => lenBase + 4 * i
  | .hreg i => hregBase + 4 * i
  | .blkw i => blkBase + 4 * i
  | .padw i => padBase + 4 * i
  | .digw i => digBase + 4 * i
  | .rem0 => rem0Offset
  | .rem1 => rem1Offset

/-- The register at an offset that is a multiple of 4; `none` is a reserved offset (R53). -/
def windowReg (o : Nat) : Option WindowReg :=
  if o = 0x000 then some .cmd
  else if o = 0x004 then some .status
  else if o < 0x010 then none
  else if h : o < 0x020 then some (.len ⟨(o - 0x010) / 4, by omega⟩)
  else if h : o < 0x040 then some (.hreg ⟨(o - 0x020) / 4, by omega⟩)
  else if h : o < 0x080 then some (.blkw ⟨(o - 0x040) / 4, by omega⟩)
  else if h : o < 0x100 then some (.padw ⟨(o - 0x080) / 4, by omega⟩)
  else if h : o < 0x140 then some (.digw ⟨(o - 0x100) / 4, by omega⟩)
  else if o = 0x140 then some .rem0
  else if o = 0x144 then some .rem1
  else none

/-- The word a host read of the register returns (R53, R54, R55, R58). CMD reads 0 (R56). -/
def readReg (r : WindowReg) (s : State) : Except Fault Word :=
  match r with
  | .cmd => .ok 0
  | .status => .ok (statusRead s)
  | .len i => s.mem.fetchWord (WindowReg.len i).offset
  | .hreg i => .ok s.hreg[i]
  | .blkw i => s.mem.fetchWord (WindowReg.blkw i).offset
  | .padw i => s.mem.fetchWord (WindowReg.padw i).offset
  | .digw i => s.mem.fetchWord (WindowReg.digw i).offset
  | .rem0 => .ok (s.rem.extractLsb' 0 32)
  | .rem1 => .ok (s.rem.extractLsb' 32 32)

/-- A host write of `v` to CMD issues command `v` (R80): the decode of R84. An illegal word raises ILLEGAL_CMD (R246)
or is ignored while ERR ≠ 0 (R240). -/
def issue (v : Word) (s : State) : Result :=
  match decode v with
  | .ok i => exec i s
  | .error _ => whenErrorFree s (raised .illegalCmd s)

/-- A host write of HREG[i] (R23). -/
def writeHreg (i : Fin 8) (v : Word) (s : State) : Result :=
  unlessReading s (.next ((s.setHash (s.hreg.set i v)).setDv false))

/-- A host write of `v` to the register (R57, with the big-endian packing of R54); the read-only ones are bus errors
(R56). -/
def writeReg (r : WindowReg) (v : Word) (s : State) : Result :=
  match r with
  | .cmd => issue v s
  | .status => .fault (.readOnlyWrite r.offset)
  | .len i => .next (s.store (WindowReg.len i).offset (wordBytes v))
  | .hreg i => writeHreg i v s
  | .blkw i => .next (s.store (WindowReg.blkw i).offset (wordBytes v))
  | .padw _ => .fault (.readOnlyWrite r.offset)
  | .digw _ => .fault (.readOnlyWrite r.offset)
  | .rem0 => .fault (.readOnlyWrite r.offset)
  | .rem1 => .fault (.readOnlyWrite r.offset)

/-- The effect of a well-formed access on the register it names. -/
def accessReg (r : WindowReg) (k : AccessKind) (s : State) : Result :=
  match k with
  | .write v => writeReg r v s
  | .read =>
    match readReg r s with
    | .error f => .fault f
    | .ok v => .next (s.returnRead v)

/-- Is the access a STATUS read, the one access R280 admits while BUSY = 1? -/
def Access.isStatusRead (a : Access) : Bool :=
  a.kind == .read && a.width == 4 && a.offset == statusOffset

/-- Does the access come from a host other than the one that drives the instance (R63)? -/
def foreignHost (a : Access) (s : State) : Bool :=
  match s.owner with
  | none => false
  | some h => h != a.host

/-- One host access (R51, R56, R63, R247, R280). The order among the model faults is the model's (log entry 5). -/
def hostAccess (a : Access) (s : State) : Result :=
  if foreignHost a s then .fault (.secondHost a.host)
  else if s.busy && !a.isStatusRead then .fault .accessWhileBusy
  else if a.width ≠ 4 then .fault (.wrongWidth a.width)
  else if a.offset % 4 ≠ 0 then .fault (.misaligned a.offset)
  else if windowSize ≤ a.offset then .fault (.outsideWindow a.offset)
  else match windowReg a.offset with
    | none => .fault (.reservedOffset a.offset)
    | some r => accessReg r a.kind (s.setOwner a.host)

/-- What one input does: a host access, or a platform reset (R270). -/
def serve (i : Input) (s : State) : Result :=
  match i with
  | .access a => hostAccess a s
  | .reset => .next s.platformReset

/-- The access that issues command word `v`, from the host that drives the instance (log entry 12). -/
def State.cmdWrite (s : State) (v : Word) : Access := ⟨s.owner.getD 0, 4, cmdOffset, .write v⟩

end Sys2Proof.Machine
end

