-- ==== Sys2Proof/Machine/Step.lean ====
section
/-! DEFINITION. One step of an instance: it serves the oldest waiting input. -/

namespace Sys2Proof.Machine

/-- "Accesses take effect one at a time, in the host's program order" (R61). With nothing waiting the block holds
its state: "it never acts between host accesses" (R11, R257). -/
def step (s : State) : Host.Outcome State Fault Refusal :=
  match s.inputs with
  | [] => .next s
  | i :: rest => serve i (s.setInputs rest)

/-- `s` with the write of the command word as the next access (R80), from the host that drives the instance, and
BUSY = 0, so that the next step serves it. A command word is one 32-bit word (R86); the bits above `nbits` are 0.
Log entry 12. -/
def State.withFetchWord (s : State) (nbits w : Nat) : State :=
  { s with
    inputs := .access (s.cmdWrite (BitVec.ofNat 32 (w % 2 ^ nbits))) :: s.inputs
    busy := false }

end Sys2Proof.Machine
end

