-- ==== Sys2Proof/Machine/HostProgram.lean ====
section
/-! DEFINITION. The host-program notation of R87 and R88 (30_encoding.md) and its expansion into accesses. -/

namespace Sys2Proof.Machine

/-- A line of a host program (R87) or a pseudo-instruction (R88). -/
inductive HostLine where
  /-- `wr OFF, V` -/
  | wr (offset : Nat) (v : Word)
  /-- `rd OFF -> NAME` -/
  | rd (offset : Nat) (name : String)
  /-- `cmd MNEMONIC` or `cmd MNEMONIC c` -/
  | cmd (i : Instr)
  /-- `; text` -/
  | comment (text : String)
  /-- `wrlen L` -/
  | wrlen (l : BitVec 128)
  /-- `wrblk s`, for |s| ≤ 64 -/
  | wrblk (bytes : List Byte)
  /-- `poll`: in the model "it is one read" -/
  | poll
  /-- `rddig` -/
  | rddig
  deriving DecidableEq, Repr

/-- A 32-bit write by `host`. -/
def write32 (host offset : Nat) (v : Word) : Access := ⟨host, 4, offset, .write v⟩

/-- A 32-bit read by `host`. -/
def read32 (host offset : Nat) : Access := ⟨host, 4, offset, .read⟩

/-- The bytes padded with 0x00 to a multiple of 4 (R88, `wrblk`). -/
def padToWord (bytes : List Byte) : List Byte := bytes ++ zeros ((4 - bytes.length % 4) % 4)

/-- The accesses of a line, in order (R87, R88). The values reads return arrive in `State.reads`; the names after
`->` are the host's own. -/
def HostLine.accesses (host : Nat) : HostLine → List Access
  | .wr o v => [write32 host o v]
  | .rd o _ => [read32 host o]
  | .cmd i => [write32 host cmdOffset (encode i)]
  | .comment _ => []
  | .wrlen l => (List.range 4).map fun k => write32 host (lenBase + 4 * k) (l.extractLsb' (32 * k) 32)
  | .wrblk s => (List.range ((s.length + 3) / 4)).map fun i =>
      write32 host (blkBase + 4 * i) (be32 (padToWord s) (4 * i))
  | .poll => [read32 host statusOffset]
  | .rddig => (List.range 16).map fun i => read32 host (digBase + 4 * i)

/-- The inputs of a host program. -/
def programInputs (host : Nat) (lines : List HostLine) : List Input :=
  (lines.flatMap (HostLine.accesses host)).map Input.access

end Sys2Proof.Machine
end

