-- ==== Sys2Proof/Machine/Platform.lean ====
section
/-! DEFINITION. A platform with several instances (R11, R66 of 20_memory.md, R255 of 60_exceptions.md): each has its
own window at its own base, its own state and its own recorded model fault, starts at reset and can be reset alone. -/

namespace Sys2Proof.Machine

/-- One instance, the absolute address of its window (the parameter `BASE`: U12, R66), and the model fault its run has
recorded, which no later step clears (R247). Log entry 10. -/
structure Slot where
  base : Nat
  core : State
  fault : Option Fault
  deriving DecidableEq, Repr

/-- The instances of a platform; their number is `N_INST` (U13). -/
abbrev Platform := List Slot

/-- `BASE` is aligned to 0x200 (R66), each instance has a window of its own, and N_INST ≥ 1 (R255). -/
abbrev Platform.wf (p : Platform) : Prop :=
  p ≠ [] ∧ (∀ sl ∈ p, sl.base % windowSize = 0) ∧ p.Pairwise fun x y => x.base ≠ y.base

/-- "Each instance starts at reset (rule R270)" (R255): the platform whose instances stand at these bases. -/
def Platform.reset (bases : List Nat) : Platform := bases.map fun b => ⟨b, State.reset, none⟩

/-- An access by absolute address: `MemRead(addr, width)` or `MemWrite(addr, width, v)` (R9). -/
structure BusAccess where
  host : Nat
  width : Nat
  addr : Nat
  kind : AccessKind
  deriving DecidableEq, Repr

/-- What the outside does to a platform: a host access, or a reset of the instance at a base (R270). -/
inductive BusEvent where
  | access (a : BusAccess)
  | reset (base : Nat)
  deriving DecidableEq, Repr

/-- Does the address lie in the window at `base`? -/
abbrev inWindow (base addr : Nat) : Prop := base ≤ addr ∧ addr < base + windowSize

/-- The access as the instance at `base` sees it: by byte offset from `BASE` (R53). -/
def BusAccess.atBase (a : BusAccess) (base : Nat) : Access := ⟨a.host, a.width, a.addr - base, a.kind⟩

/-- Is the event for the instance at `base`? -/
def BusEvent.selects (e : BusEvent) (base : Nat) : Bool :=
  match e with
  | .access a => decide (inWindow base a.addr)
  | .reset b => b == base

/-- The event as an input of the instance at `base`. -/
def BusEvent.atBase (e : BusEvent) (base : Nat) : Input :=
  match e with
  | .access a => .access (a.atBase base)
  | .reset _ => .reset

/-- The absolute address an event names. -/
def BusEvent.address : BusEvent → Nat
  | .access a => a.addr
  | .reset b => b

/-- The instance after an answer of its meaning: a model fault is recorded, and "The instance's architected state is
unchanged by the faulting access" (R247). -/
def Slot.record (sl : Slot) (r : Result) : Host.Outcome Slot Fault Refusal :=
  match r with
  | .next t => .next { sl with core := t }
  | .fault f => .next { sl with fault := some f }
  | .refused r => .refused r

/-- What one input does to an instance of a platform. After a model fault its accesses have no meaning: they change
nothing and the fault stays. A reset sets its registers (R270) and does not clear the fault (R247). -/
def Slot.serve (i : Input) (sl : Slot) : Host.Outcome Slot Fault Refusal :=
  match i with
  | .reset => .next { sl with core := sl.core.platformReset }
  | .access a =>
    match sl.fault with
    | some _ => .next sl
    | none => sl.record (hostAccess a sl.core)

/-- The platform delivers an event to the instance it is for; every other instance keeps all it has. An address in no
window is not the block's (R66): refused (log entry 10). -/
def Platform.serve (e : BusEvent) : Platform → Host.Outcome Platform Fault Refusal
  | [] => .refused (.noInstanceAt e.address)
  | sl :: rest =>
    if e.selects sl.base then
      match sl.serve (e.atBase sl.base) with
      | .next sl' => .next (sl' :: rest)
      | .fault f => .fault f
      | .refused r => .refused r
    else
      match Platform.serve e rest with
      | .next rest' => .next (sl :: rest')
      | .fault f => .fault f
      | .refused r => .refused r

/-- A host access by absolute address. -/
def Platform.access (a : BusAccess) (p : Platform) : Host.Outcome Platform Fault Refusal := p.serve (.access a)

/-- A reset of the instance at `base`. -/
def Platform.resetInstance (base : Nat) (p : Platform) : Host.Outcome Platform Fault Refusal := p.serve (.reset base)

/-- Events in order, of any instances. -/
def Platform.run : List BusEvent → Platform → Host.Outcome Platform Fault Refusal
  | [], p => .next p
  | e :: es, p =>
    match p.serve e with
    | .next p' => Platform.run es p'
    | .fault f => .fault f
    | .refused r => .refused r

/-- Inputs of one instance in order. -/
def Slot.run : List Input → Slot → Host.Outcome Slot Fault Refusal
  | [], sl => .next sl
  | i :: is, sl =>
    match sl.serve i with
    | .next sl' => Slot.run is sl'
    | .fault f => .fault f
    | .refused r => .refused r

end Sys2Proof.Machine
end

