-- ==== Sys2Proof/Safety.lean ====
section
/-! DEFINITION. The terms claims are stated in: what the buffers hold, what an access leaves alone, the invariant of the
machine, the ends of a computation (R285 of 70_reset_and_hazards.md), and a stream given to the block by commands. -/

namespace Sys2Proof.Machine

/-! ### What the byte buffers hold -/

/-- The bytes `bs` stand at window offsets `a`, `a + 1`, ... -/
def State.holdsBytes (s : State) (a : Nat) (bs : List Byte) : Prop :=
  ∀ j < bs.length, s.mem.read (a + j) = bs[j]?

/-- LEN holds `l`: window word LENk holds `l[32k+31 : 32k]`, k = 0..3 (R55). -/
def State.holdsLen (s : State) (l : BitVec 128) : Prop :=
  ∀ k < 4, s.holdsBytes (0x010 + 4 * k) (wordBytes (l.extractLsb' (32 * k) 32))

/-- DIGEST holds the rendering of the hash state `h` (R220). -/
def State.holdsDigest (s : State) (h : HashState) : Prop := s.holdsBytes 0x100 (hex h)

/-- One of the `n` bytes from offset `a` on was never written. -/
def State.lacks (s : State) (a n : Nat) : Prop := ∃ j < n, s.mem.read (a + j) = none

/-- Every byte outside offsets `a .. a+n-1` reads in `t` as it does in `s`. -/
def State.sameBytesOutside (s t : State) (a n : Nat) : Prop :=
  ∀ x, x < a ∨ a + n ≤ x → t.mem.read x = s.mem.read x

/-- The model fault of R38. -/
def faultsUnwritten (r : Result) : Prop := ∃ a, r = .fault (.unwrittenByte a)

/-- The model faults that are bus errors (R56). -/
def Fault.isBusError : Fault → Bool
  | .reservedOffset _ => true
  | .readOnlyWrite _ => true
  | .wrongWidth _ => true
  | .misaligned _ => true
  | .outsideWindow _ => false
  | .unwrittenByte _ => false
  | .accessWhileBusy => false
  | .secondHost _ => false

/-! ### The invariant -/

/-- What holds at reset and is kept by every step. -/
structure State.Inv (s : State) : Prop where
  /-- The buffers are in canonical form. -/
  memWf : s.mem.wf
  /-- Only bytes of LEN, BLK, PADBUF and DIGEST are listed. -/
  memInBuffers : s.mem.inBuffers
  /-- "DRV = ERROR holds exactly when ERR ≠ 0 (invariant)" (R27). -/
  errorMatches : s.drv = .error ↔ s.err ≠ .none
  /-- "DV = 1 implies ERR = 0 and DIGEST = Hex(HREG)" (R28). -/
  digestValid : s.dv = true → s.err = .none ∧ s.holdsDigest s.hreg
  /-- No digest is valid while the driver reads a stream (R192, R194). -/
  readingInvalid : s.drv = .read → s.dv = false
  /-- BUSY "reads 0 whenever the host can observe it in the model" (R29). -/
  notBusy : s.busy = false
  /-- REM "is always below 2^61" (R33). -/
  remBounded : s.rem.toNat < 2 ^ 61
  /-- No bytes are due in IDLE and DONE. -/
  remIdle : s.drv = .idle ∨ s.drv = .done → s.rem = 0
  /-- In READ the stream has a whole number of bytes, and whole blocks of it have been taken. -/
  remReading : s.drv = .read → s.dlen.toNat % 8 = 0 ∧ ∃ q, s.dlen.toNat / 8 = 64 * q + s.rem.toNat
  /-- PADBUF holds the PADCNT blocks, all 128 bytes written (R30, R31). -/
  padWritten : s.padcnt ≠ .zero → ∀ j < 128, s.mem.read (0x080 + j) ≠ none
  /-- "When PADCNT = 1, bytes 64..127 are set to 0x00" (R31). -/
  padTail : s.padcnt = .one → ∀ j, 64 ≤ j → j < 128 → s.mem.read (0x080 + j) = some 0
  /-- A completed driver run has left its padded blocks. -/
  donePadded : s.drv = .done → s.padcnt ≠ .zero

/-! ### The ends of a computation (R285) -/

/-- "Completed: STATUS.DRV = DONE, ERR = 0 and DV = 1." -/
def State.completed (s : State) : Prop := s.drv = .done ∧ s.err = .none ∧ s.dv = true

/-- "Failed: STATUS.DRV = ERROR, with the cause in ERR." -/
def State.failed (s : State) : Prop := s.drv = .error ∧ s.err ≠ .none

/-- A run a claim may speak of: no model fault, and ERR = 0 at the end (R285). -/
def safeRun (n : Nat) (s t : State) : Prop := Host.Core.run Sys2Proof.core n s = .next t ∧ t.err = .none

/-! ### A stream given by commands -/

/-- The chunks of a stream: 64 bytes each but the last, max(1, ceil(N/64)) of them (R191). -/
def chunksOf (m : List Byte) : List (List Byte) := (List.range (max 1 ((m.length + 63) / 64))).map (blk m)

/-- The host writes the chunk into BLK and issues CHUNK with its length (R199). -/
def giveChunk (chunk : List Byte) (s : State) : Result := exec (.chunk chunk.length) (s.store blkBase chunk)

/-- The host gives the chunks in order, stopping at the first fault. -/
def giveChunks : List (List Byte) → State → Result
  | [], s => .next s
  | chunk :: rest, s =>
    match giveChunk chunk s with
    | .next t => giveChunks rest t
    | .fault f => .fault f
    | .refused r => .refused r

/-- The host compresses full blocks in order: BLK, then COMPRESS (R166). -/
def giveBlocks : List (List Byte) → State → Result
  | [], s => .next s
  | b :: rest, s =>
    match exec .compress (s.store blkBase b) with
    | .next t => giveBlocks rest t
    | .fault f => .fault f
    | .refused r => .refused r

end Sys2Proof.Machine
end

