-- ==== Sys2Proof/Certificates/Slice0/Obligations.lean ====
section
/-! DEFINITION. The statements for the provers. -/

open Sys2Proof Sys2Proof.Machine

/-! ### Reset -/

/-- R270. For the state after reset and for a platform reset of an instance in any state: HREG = H0, every STATUS field
0 (STATUS reads 0), REM = DLEN = 0, and no byte of BLK, LEN, PADBUF or DIGEST is written. -/
def Obligations.ResetState : Prop :=
  (∀ s, s = State.reset ∨ (∃ s₀ rest, s₀.inputs = .reset :: rest ∧ step s₀ = .next s) →
    s.hreg = #v[0x6a09e667, 0xbb67ae85, 0x3c6ef372, 0xa54ff53a, 0x510e527f, 0x9b05688c, 0x1f83d9ab, 0x5be0cd19] ∧
    s.err = .none ∧ s.drv = .idle ∧ s.dv = false ∧ s.padcnt = .zero ∧ s.busy = false ∧ s.rem = 0 ∧ s.dlen = 0 ∧
    (∀ a, s.mem.read a = none) ∧ readReg .status s = .ok 0) ∧
  (∀ s₀ rest, s₀.inputs = .reset :: rest → ∃ s, step s₀ = .next s)

/-- A reset leaves what INIT leaves, and differs in two ways only: it makes the four buffers unwritten, and it clears
DLEN (BUSY is 0 in the model, R29). R271 says so of the block's registers, and the spec marks it as its own inference
("[derived: from rule R270 and rule R163]"). The equality is one of whole states: that a platform reset also keeps the
waiting inputs, the words reads have returned, the recorded host and the free-value counter is not R271 but the model's
choice (log entry 15; log entry 6 for the recorded host). -/
def Obligations.ResetIsInitWithEmptyBuffers : Prop :=
  ∀ s : State, s.busy = false → ∃ t, exec .init s = .next t ∧ s.platformReset = { t with mem := [], dlen := 0 }

/-! ### Primitives and constants -/

/-- R100, R102, R103: each bit of a rotation, a choice and a majority, and the corner cases and examples the rules
give. -/
def Obligations.RotateChooseMajorityBits : Prop :=
  (∀ (x : Word) (n i : Nat), 1 ≤ n → n ≤ 31 → i < 32 → (rotr x n).getLsbD i = x.getLsbD ((i + n) % 32)) ∧
  (∀ (x y z : Word) (i : Nat), i < 32 →
    (ch x y z).getLsbD i = if x.getLsbD i then y.getLsbD i else z.getLsbD i) ∧
  (∀ (x y z : Word) (i : Nat), i < 32 →
    (maj x y z).getLsbD i = decide (2 ≤ (x.getLsbD i).toNat + (y.getLsbD i).toNat + (z.getLsbD i).toNat)) ∧
  (∀ n, 1 ≤ n → n ≤ 31 → rotr 0 n = 0 ∧ rotr 0xFFFFFFFF n = 0xFFFFFFFF) ∧
  (∀ y z, ch 0 y z = z ∧ ch 0xFFFFFFFF y z = y) ∧
  (∀ x z, maj x x z = x ∧ maj 0 0xFFFFFFFF z = z) ∧
  rotr 0x00000001 2 = 0x40000000 ∧ ch 0xF0F0F0F0 0xCCCCCCCC 0xAAAAAAAA = 0xCACACACA ∧
  maj 0xF0F0F0F0 0xCCCCCCCC 0xAAAAAAAA = 0xE8E8E8E8

/-- R104 to R107: each bit of the four sigma functions; bits the logical shift brings in are zero (R101). With the
corner cases and examples of the rules. -/
def Obligations.SigmaBits : Prop :=
  (∀ (x : Word) (i : Nat), i < 32 →
    (bsig0 x).getLsbD i =
      (x.getLsbD ((i + 2) % 32) ^^ (x.getLsbD ((i + 13) % 32) ^^ x.getLsbD ((i + 22) % 32))) ∧
    (bsig1 x).getLsbD i =
      (x.getLsbD ((i + 6) % 32) ^^ (x.getLsbD ((i + 11) % 32) ^^ x.getLsbD ((i + 25) % 32))) ∧
    (ssig0 x).getLsbD i =
      (x.getLsbD ((i + 7) % 32) ^^ (x.getLsbD ((i + 18) % 32) ^^ (decide (i + 3 < 32) && x.getLsbD (i + 3)))) ∧
    (ssig1 x).getLsbD i =
      (x.getLsbD ((i + 17) % 32) ^^ (x.getLsbD ((i + 19) % 32) ^^ (decide (i + 10 < 32) && x.getLsbD (i + 10))))) ∧
  bsig0 0 = 0 ∧ bsig0 0xFFFFFFFF = 0xFFFFFFFF ∧ bsig0 0x6A09E667 = 0xCE20B47E ∧
  bsig1 0 = 0 ∧ bsig1 0xFFFFFFFF = 0xFFFFFFFF ∧ bsig1 0x00000001 = 0x04200080 ∧
  ssig0 0 = 0 ∧ ssig0 0xFFFFFFFF = 0x1FFFFFFF ∧ ssig0 0x80000000 = 0x11002000 ∧
  ssig1 0 = 0 ∧ ssig1 0xFFFFFFFF = 0x003FFFFF ∧ ssig1 0x12345678 = 0xA1F78649

/-- The way R112 re-derives the tables, which the spec marks as general knowledge: with p_0 = 2, p_1 = 3, ..., p_63 =
311 the first 64 primes, K[t] = floor(cbrt(p_t · 2^96)) mod 2^32 for t in 0..63, and H0[i] = floor(sqrt(p_i · 2^64))
mod 2^32 for i in 0..7. -/
def Obligations.ConstantsFromPrimeRoots : Prop :=
  ∃ p : List Nat, p = ((List.range 312).filter fun x => decide x.Prime) ∧ p.length = 64 ∧ p[63]? = some 311 ∧
    (∀ t < 64, ∃ r : Nat, r ^ 3 ≤ p.getD t 0 * 2 ^ 96 ∧ p.getD t 0 * 2 ^ 96 < (r + 1) ^ 3 ∧
      (roundConstant t).toNat = r % 2 ^ 32) ∧
    (∀ i : Fin 8, ∃ r : Nat, r ^ 2 ≤ p.getD i 0 * 2 ^ 64 ∧ p.getD i 0 * 2 ^ 64 < (r + 1) ^ 2 ∧
      initialHash[i].toNat = r % 2 ^ 32)

/-! ### Schedule and compression -/

/-- R161: the schedule has 64 words; the first 16 are the block's big-endian words, the others obey the recurrence. -/
def Obligations.ScheduleRecurrence : Prop :=
  ∀ b : List Byte, b.length = 64 →
    (schedule b).length = 64 ∧
    (∀ t < 16, (schedule b)[t]? =
      some (b.getD (4 * t) 0 ++ b.getD (4 * t + 1) 0 ++ b.getD (4 * t + 2) 0 ++ b.getD (4 * t + 3) 0)) ∧
    (∀ t, 16 ≤ t → t < 64 → (schedule b)[t]? =
      some (ssig1 ((schedule b).getD (t - 2) 0) + (schedule b).getD (t - 7) 0 +
        ssig0 ((schedule b).getD (t - 15) 0) + (schedule b).getD (t - 16) 0))

/-- R162: there are values of the working variables a..h before each round that start at H, follow the round's
simultaneous assignment for t = 0..63, and end, added to H word by word, at Compress(H, B). -/
def Obligations.CompressIsSixtyFourRounds : Prop :=
  ∀ (hs : HashState) (b : List Byte), ∃ a bb c d e f g h : Nat → Word,
    (a 0 = hs[0] ∧ bb 0 = hs[1] ∧ c 0 = hs[2] ∧ d 0 = hs[3] ∧ e 0 = hs[4] ∧ f 0 = hs[5] ∧ g 0 = hs[6] ∧ h 0 = hs[7]) ∧
    (∀ t < 64, ∃ t1 t2 : Word,
      t1 = h t + bsig1 (e t) + ch (e t) (f t) (g t) + roundConstant t + (schedule b).getD t 0 ∧
      t2 = bsig0 (a t) + maj (a t) (bb t) (c t) ∧
      a (t + 1) = t1 + t2 ∧ bb (t + 1) = a t ∧ c (t + 1) = bb t ∧ d (t + 1) = c t ∧ e (t + 1) = d t + t1 ∧
      f (t + 1) = e t ∧ g (t + 1) = f t ∧ h (t + 1) = g t) ∧
    compress hs b = #v[a 64 + hs[0], bb 64 + hs[1], c 64 + hs[2], d 64 + hs[3], e 64 + hs[4], f 64 + hs[5],
      g 64 + hs[6], h 64 + hs[7]]

/-- The values R162 and R164 give as examples: the padded block of "abc", the all-zero state and block, and the
all-zero block from H0. -/
def Obligations.CompressWorkedValues : Prop :=
  compress initialHash (pad [0x61, 0x62, 0x63] 24) = #v[0xba7816bf, 0x8f01cfea, 0x414140de, 0x5dae2223, 0xb00361a3,
    0x96177a9c, 0xb410ff61, 0xf20015ad] ∧
  compress (Vector.replicate 8 0) (zeros 64) = #v[0x7ca51614, 0x425c3ba8, 0xce54dd2f, 0xc2020ae7, 0xb6e574d1,
    0x98136d0f, 0xae7e26cc, 0xbf0be7a6] ∧
  compress initialHash (zeros 64) = #v[0xda5698be, 0x17b9b469, 0x62335799, 0x779fbeca, 0x8ce5d491, 0xc0d26243,
    0xbafef9ea, 0x1837a9d8]

/-! ### Padding and formatting -/

/-- R142 and R143, whose zero count and shapes the spec marks as derived: for a chunk of at most 64 bytes, Pad is the
chunk, the marker 0x80, (55 - c) mod 64 zero bytes, which is the least number that leaves eight bytes to a 64-byte
boundary, and the length big-endian. It is one block up to 55 bytes, two from 56 to 64, and its last eight bytes read
as a big-endian number are L. -/
def Obligations.PadBytes : Prop :=
  ∀ (s : List Byte) (l : BitVec 64), s.length ≤ 64 →
    (pad s l).length = (if s.length ≤ 55 then 64 else 128) ∧
    (∃ k : Nat, (k : Int) = (55 - (s.length : Int)) % 64 ∧ (pad s l).length = s.length + 1 + k + 8 ∧
      (s.length + 1 + k + 8) % 64 = 0 ∧ ∀ k', (s.length + 1 + k' + 8) % 64 = 0 → k ≤ k') ∧
    (∀ i < s.length, (pad s l)[i]? = s[i]?) ∧
    (pad s l)[s.length]? = some 0x80 ∧
    (∀ i, s.length < i → i + 8 < (pad s l).length → (pad s l)[i]? = some 0) ∧
    (∀ i < 8, (pad s l)[(pad s l).length - 8 + i]? = some (l.extractLsb' (56 - 8 * i) 8)) ∧
    (((pad s l).drop ((pad s l).length - 8)).foldl (fun n v => 256 * n + v.toNat) 0) = l.toNat

/-- R220: Hex(H) has 64 characters; character 8i + j is the ASCII digit of nibble j (the most significant first) of
word i. The corner cases of the rule, and: distinct states give distinct strings. -/
def Obligations.HexDigits : Prop :=
  (∀ h : HashState, (hex h).length = 64 ∧
    ∀ (i : Fin 8) (j : Nat), j < 8 → ∃ v, v = h[i].toNat / 16 ^ (7 - j) % 16 ∧
      ((hex h)[8 * (i : Nat) + j]?).map BitVec.toNat = some (if v ≤ 9 then 0x30 + v else 0x61 + (v - 10))) ∧
  (∀ h h' : HashState, hex h = hex h' → h = h') ∧
  hexWord 0 = [0x30, 0x30, 0x30, 0x30, 0x30, 0x30, 0x30, 0x30] ∧
  hexWord 0x0000000F = [0x30, 0x30, 0x30, 0x30, 0x30, 0x30, 0x30, 0x66] ∧
  hexWord 0xFFFFFFFF = [0x66, 0x66, 0x66, 0x66, 0x66, 0x66, 0x66, 0x66]

/-- Hex writes the 32 digest bytes (each word most significant byte first), in order, as two hex digits each, high
nibble first: R222, which the spec marks as derived from R220. -/
def Obligations.HexOfDigestBytes : Prop :=
  ∀ h : HashState,
    (h.toList.flatMap fun w => [w.extractLsb' 24 8, w.extractLsb' 16 8, w.extractLsb' 8 8, w.extractLsb' 0 8]).length =
      32 ∧
    hex h =
      (h.toList.flatMap fun w => [w.extractLsb' 24 8, w.extractLsb' 16 8, w.extractLsb' 8 8, w.extractLsb' 0 8]).flatMap
        fun v : Byte => [hexDigit (v.extractLsb' 4 4), hexDigit (v.extractLsb' 0 4)]

/-! ### Encoding -/

/-- Decoding the word of a well-formed command gives it back, and every word that decodes is the word of the command it
decodes to: each legal word has one meaning and no bit of it is dropped. -/
def Obligations.EncodeDecodeAgree : Prop :=
  (∀ i : Instr, i.wellFormed = true → decode (encode i) = .ok i) ∧
  (∀ (v : Word) (i : Instr), decode v = .ok i → i.wellFormed = true ∧ encode i = v)

/-- R85, R246: the illegal words are exactly those with OP = 0 or OP in 8..15, with RSVD ≠ 0, or with CLEN ≠ 0 on INIT,
COMPRESS, FORMAT or START; issuing one raises ILLEGAL_CMD when ERR = 0 and has no effect otherwise. -/
def Obligations.IllegalWords : Prop :=
  ∀ v : Word,
    ((∃ e, decode v = .error e) ↔
      v.toNat % 16 = 0 ∨ 8 ≤ v.toNat % 16 ∨ v.toNat / 2048 ≠ 0 ∨
        (v.toNat % 16 ∈ [1, 2, 5, 6] ∧ v.toNat / 16 % 128 ≠ 0)) ∧
    ((∃ e, decode v = .error e) → ∀ s : State,
      (s.err = .none → accessReg .cmd (.write v) s = .next (s.raise .illegalCmd)) ∧
      (s.err ≠ .none → accessReg .cmd (.write v) s = .next s))

/-- The decoder agrees with spec/opcode_table.json: a word decodes exactly when a row covers it, to a command of that
row's mnemonic, and no word is covered by two rows. -/
def Obligations.DecodeMatchesOpcodeTable : Prop :=
  ∀ v : Word,
    ((∃ i, decode v = .ok i) ↔ ∃ r ∈ opcodeTable, r.covers v = true) ∧
    (∀ i r, decode v = .ok i → r ∈ opcodeTable → r.covers v = true → r.mnemonic = i.mnemonic) ∧
    (∀ r ∈ opcodeTable, ∀ r' ∈ opcodeTable, r.covers v = true → r'.covers v = true → r = r')

/-- Command words R83 writes out. -/
def Obligations.CommandWords : Prop :=
  decode 0x00000001 = .ok .init ∧ decode 0x00000002 = .ok .compress ∧ decode 0x00000383 = .ok (.pad 56) ∧
  decode 0x00000004 = .ok (.final 0) ∧ decode 0x00000005 = .ok .format ∧ decode 0x00000006 = .ok .start ∧
  decode 0x00000037 = .ok (.chunk 3) ∧ decode 0x00000407 = .ok (.chunk 64)

/-! ### Steps -/

/-- A step with nothing waiting changes nothing. A step whose oldest input is a 32-bit access to a register of the
window, by the host that drives the instance and with BUSY = 0, is that register's access on the state with that input
taken off and the host noted as the driving one. If it is a write to CMD of a word that decodes to `i`, the step is
`exec i` there; so is the step of `withFetchWord`. The inputs, the noted host and `withFetchWord` are the model's
choices (log entries 1, 6 and 12). -/
def Obligations.StepRunsDecodedCommand : Prop :=
  (∀ s : State, s.inputs = [] → step s = .next s) ∧
  (∀ (s : State) (host : Nat) (r : WindowReg) (k : AccessKind) (rest : List Input),
    s.inputs = .access ⟨host, 4, r.offset, k⟩ :: rest → (s.owner = none ∨ s.owner = some host) → s.busy = false →
    step s = accessReg r k ((s.setInputs rest).setOwner host)) ∧
  (∀ (s : State) (host : Nat) (v : Word) (rest : List Input) (i : Instr),
    s.inputs = .access ⟨host, 4, 0x000, .write v⟩ :: rest → (s.owner = none ∨ s.owner = some host) → s.busy = false →
    decode v = .ok i → step s = exec i ((s.setInputs rest).setOwner host)) ∧
  (∀ (s : State) (w : Nat) (i : Instr), decodeTableWord 32 w = some i →
    step (s.withFetchWord 32 w) = exec i ({ s with busy := false }.setOwner (s.owner.getD 0)))

/-! ### The commands -/

/-- R163: INIT, in every state. A malformed INIT word is ILLEGAL_CMD, or ignored while ERR ≠ 0. -/
def Obligations.InitCommand : Prop :=
  encode .init = 0x00000001 ∧
  ∀ s : State,
    exec .init s = .next { s with
      hreg := #v[0x6a09e667, 0xbb67ae85, 0x3c6ef372, 0xa54ff53a, 0x510e527f, 0x9b05688c, 0x1f83d9ab, 0x5be0cd19]
      err := .none, drv := .idle, dv := false, padcnt := .zero, rem := 0 } ∧
    (s.busy = false → ∀ t, exec .init s = .next t → readReg .status t = .ok 0) ∧
    (∀ v : Word, opField v = 1 → (clenField v ≠ 0 ∨ rsvdField v ≠ 0) →
      accessReg .cmd (.write v) s = .next (if s.err = .none then s.raise .illegalCmd else s))

/-- R164: COMPRESS, in every state: ignored in the error state, SEQUENCE in READ, a model fault when a byte of BLK is
unwritten, and otherwise HREG, DV and DRV as given and nothing else. -/
def Obligations.CompressCommand : Prop :=
  encode .compress = 0x00000002 ∧
  ∀ s : State,
    (s.err ≠ .none → exec .compress s = .next s) ∧
    (s.err = .none → s.drv = .read → exec .compress s = .next (s.raise .sequence)) ∧
    (s.err = .none → s.drv ≠ .read → s.lacks 0x040 64 → faultsUnwritten (exec .compress s)) ∧
    (s.err = .none → s.drv ≠ .read → ∀ b : List Byte, b.length = 64 → s.holdsBytes 0x040 b →
      exec .compress s = .next { s with hreg := compress s.hreg b, dv := false, drv := .idle })

/-- R144: PAD c, in every state and for every c. PADBUF's bytes are written, PADCNT is set, every other byte and
register keeps its value. -/
def Obligations.PadCommand : Prop :=
  ∀ (c : Nat) (s : State),
    (c < 128 → encode (.pad c) = 0x00000003 ||| (BitVec.ofNat 32 c <<< 4)) ∧
    (s.err ≠ .none → exec (.pad c) s = .next s) ∧
    (s.err = .none → s.drv = .read → exec (.pad c) s = .next (s.raise .sequence)) ∧
    (s.err = .none → s.drv ≠ .read → 64 < c → exec (.pad c) s = .next (s.raise .contract)) ∧
    (s.err = .none → s.drv ≠ .read → c ≤ 64 → s.lacks 0x010 16 → faultsUnwritten (exec (.pad c) s)) ∧
    (s.err = .none → s.drv ≠ .read → c ≤ 64 → ∀ l : BitVec 128, s.holdsLen l →
      (2 ^ 64 ≤ l.toNat → exec (.pad c) s = .next (s.raise .inputTooLarge)) ∧
      (l.toNat < 2 ^ 64 → s.lacks 0x040 c → faultsUnwritten (exec (.pad c) s)) ∧
      (l.toNat < 2 ^ 64 → ∀ chunk : List Byte, chunk.length = c → s.holdsBytes 0x040 chunk →
        ∃ t p, p = pad chunk (l.setWidth 64) ∧ exec (.pad c) s = .next t ∧
          t.holdsBytes 0x080 p ∧ (∀ j, p.length ≤ j → j < 128 → t.mem.read (0x080 + j) = some 0) ∧
          t.padcnt = (if c ≤ 55 then .one else .two) ∧
          s.sameBytesOutside t 0x080 128 ∧ t = { s with mem := t.mem, padcnt := t.padcnt }))

/-- R165: FINAL c, in every state and for every c. The padded block, or the two of them block 0 first, are compressed
into HREG; PADBUF, PADCNT, DV and DRV as given; every other byte and register keeps its value. -/
def Obligations.FinalCommand : Prop :=
  ∀ (c : Nat) (s : State),
    (c < 128 → encode (.final c) = 0x00000004 ||| (BitVec.ofNat 32 c <<< 4)) ∧
    (s.err ≠ .none → exec (.final c) s = .next s) ∧
    (s.err = .none → s.drv = .read → exec (.final c) s = .next (s.raise .sequence)) ∧
    (s.err = .none → s.drv ≠ .read → 64 < c → exec (.final c) s = .next (s.raise .contract)) ∧
    (s.err = .none → s.drv ≠ .read → c ≤ 64 → s.lacks 0x010 16 → faultsUnwritten (exec (.final c) s)) ∧
    (s.err = .none → s.drv ≠ .read → c ≤ 64 → ∀ l : BitVec 128, s.holdsLen l →
      (2 ^ 64 ≤ l.toNat → exec (.final c) s = .next (s.raise .inputTooLarge)) ∧
      (l.toNat < 2 ^ 64 → s.lacks 0x040 c → faultsUnwritten (exec (.final c) s)) ∧
      (l.toNat < 2 ^ 64 → ∀ chunk : List Byte, chunk.length = c → s.holdsBytes 0x040 chunk →
        ∃ t p, p = pad chunk (l.setWidth 64) ∧ exec (.final c) s = .next t ∧
          t.hreg = (if c ≤ 55 then compress s.hreg (blk p 0)
            else compress (compress s.hreg (blk p 0)) (blk p 1)) ∧
          t.holdsBytes 0x080 p ∧ (∀ j, p.length ≤ j → j < 128 → t.mem.read (0x080 + j) = some 0) ∧
          t.padcnt = (if c ≤ 55 then .one else .two) ∧ t.dv = false ∧ t.drv = .idle ∧
          s.sameBytesOutside t 0x080 128 ∧
          t = { s with hreg := t.hreg, mem := t.mem, padcnt := t.padcnt, dv := t.dv, drv := t.drv }))

/-- R221: FORMAT, in every state. DIGEST's 64 bytes are written, DV is set, every other byte and register keeps its
value. A second FORMAT writes the same DIGEST. -/
def Obligations.FormatCommand : Prop :=
  encode .format = 0x00000005 ∧
  ∀ s : State,
    (s.err ≠ .none → exec .format s = .next s) ∧
    (s.err = .none → s.drv = .read → exec .format s = .next (s.raise .sequence)) ∧
    (s.err = .none → s.drv ≠ .read →
      ∃ t, exec .format s = .next t ∧ t.holdsDigest s.hreg ∧ t.dv = true ∧
        s.sameBytesOutside t 0x100 64 ∧ t = { s with mem := t.mem, dv := t.dv } ∧
        ∃ t', exec .format t = .next t' ∧ t'.holdsDigest s.hreg)

/-- R192: START, in every state. HREG, DLEN, REM, DV and DRV as given, and nothing else. -/
def Obligations.StartCommand : Prop :=
  encode .start = 0x00000006 ∧
  ∀ s : State,
    (s.err ≠ .none → exec .start s = .next s) ∧
    (s.err = .none → s.drv = .read → exec .start s = .next (s.raise .sequence)) ∧
    (s.err = .none → s.drv ≠ .read → s.lacks 0x010 16 → faultsUnwritten (exec .start s)) ∧
    (s.err = .none → s.drv ≠ .read → ∀ l : BitVec 128, s.holdsLen l →
      (2 ^ 64 ≤ l.toNat → exec .start s = .next (s.raise .inputTooLarge)) ∧
      (l.toNat < 2 ^ 64 → l.toNat % 8 ≠ 0 → exec .start s = .next (s.raise .contract)) ∧
      (l.toNat < 2 ^ 64 → l.toNat % 8 = 0 → exec .start s = .next { s with
        hreg := #v[0x6a09e667, 0xbb67ae85, 0x3c6ef372, 0xa54ff53a, 0x510e527f, 0x9b05688c, 0x1f83d9ab, 0x5be0cd19]
        dlen := BitVec.ofNat 64 l.toNat, rem := BitVec.ofNat 64 (l.toNat / 8), dv := false, drv := .read }))

/-- R193, R194, R195: CHUNK c, in every state and for every c. The checks in order, then the direct block (HREG and REM
change, nothing else), or the last chunk (HREG, PADBUF, PADCNT, REM, DIGEST, DV and DRV as given, every other byte and
register unchanged). -/
def Obligations.ChunkCommand : Prop :=
  ∀ (c : Nat) (s : State),
    (c < 128 → encode (.chunk c) = 0x00000007 ||| (BitVec.ofNat 32 c <<< 4)) ∧
    (s.err ≠ .none → exec (.chunk c) s = .next s) ∧
    (s.err = .none → s.drv ≠ .read → exec (.chunk c) s = .next (s.raise .sequence)) ∧
    (s.err = .none → s.drv = .read → c < min 64 s.rem.toNat → exec (.chunk c) s = .next (s.raise .ioError)) ∧
    (s.err = .none → s.drv = .read → min 64 s.rem.toNat < c → exec (.chunk c) s = .next (s.raise .contract)) ∧
    (s.err = .none → s.drv = .read → c = min 64 s.rem.toNat →
      (s.lacks 0x040 c → faultsUnwritten (exec (.chunk c) s)) ∧
      (∀ chunk : List Byte, chunk.length = c → s.holdsBytes 0x040 chunk →
        (64 < s.rem.toNat → exec (.chunk c) s =
          .next { s with hreg := compress s.hreg chunk, rem := BitVec.ofNat 64 (s.rem.toNat - 64) }) ∧
        (s.rem.toNat ≤ 64 → ∃ t p, p = pad chunk s.dlen ∧ exec (.chunk c) s = .next t ∧
          t.hreg = (if c ≤ 55 then compress s.hreg (blk p 0)
            else compress (compress s.hreg (blk p 0)) (blk p 1)) ∧
          t.holdsBytes 0x080 p ∧ (∀ j, p.length ≤ j → j < 128 → t.mem.read (0x080 + j) = some 0) ∧
          t.padcnt = (if c ≤ 55 then .one else .two) ∧ t.rem = 0 ∧ t.holdsDigest t.hreg ∧ t.dv = true ∧
          t.drv = .done ∧
          (∀ x, x < 0x080 ∨ 0x140 ≤ x → t.mem.read x = s.mem.read x) ∧
          t = { s with hreg := t.hreg, mem := t.mem, padcnt := t.padcnt, rem := t.rem, dv := t.dv, drv := t.drv })))

/-! ### Errors -/

/-- R241: raising an error writes ERR, DRV and DV and nothing else; the codes are 1 to 5; "An error is precise":
whatever access makes ERR nonzero, the state after it is the state before it with only the error state written. -/
def Obligations.ErrorsArePrecise : Prop :=
  (∀ (e : ErrCode) (s : State), s.raise e = { s with err := e, drv := .error, dv := false }) ∧
  (ErrCode.bits .none = 0 ∧ ErrCode.bits .inputTooLarge = 1 ∧ ErrCode.bits .ioError = 2 ∧
    ErrCode.bits .contract = 3 ∧ ErrCode.bits .sequence = 4 ∧ ErrCode.bits .illegalCmd = 5) ∧
  (∀ (r : WindowReg) (k : AccessKind) (s t : State), accessReg r k s = .next t → s.err = .none → t.err ≠ .none →
    t = s.raise t.err)

/-- R240: while ERR ≠ 0, every command but a well-formed INIT, and every illegal word, leaves the state as it is.
Register reads return what they return without the error (STATUS apart), and LEN, BLK and HREG writes work. INIT and
reset clear the error, and no other access changes ERR (in the states DRV = ERROR of R27's invariant). -/
def Obligations.ErrorStateIgnoresCommands : Prop :=
  ∀ s : State, s.err ≠ .none →
    (∀ v, v ≠ 0x00000001 → accessReg .cmd (.write v) s = .next s) ∧
    (∃ t, accessReg .cmd (.write 0x00000001) s = .next t ∧ t.err = .none) ∧
    (∀ r, r ≠ .status → readReg r s = readReg r { s with err := .none, drv := .idle }) ∧
    (∃ v, readReg .status s = .ok v) ∧
    (∀ i v, ∃ t, accessReg (.len i) (.write v) s = .next t ∧ t.mem.fetchWord (0x010 + 4 * i) = .ok v) ∧
    (∀ i v, ∃ t, accessReg (.blkw i) (.write v) s = .next t ∧ t.mem.fetchWord (0x040 + 4 * i) = .ok v) ∧
    (s.drv = .error → ∀ (i : Fin 8) v, ∃ t, accessReg (.hreg i) (.write v) s = .next t ∧ t.hreg[i] = v) ∧
    (∀ rest, s.inputs = .reset :: rest → ∃ t, step s = .next t ∧ t.err = .none) ∧
    (s.drv = .error → ∀ r k t, accessReg r k s = .next t → t.err ≠ s.err → r = .cmd ∧ k = .write 0x00000001)

/-- The first error is kept (R240, R26): a step that starts with ERR ≠ 0 ends with the same ERR, unless it served a
reset or an INIT word written to CMD. The premise is R27's invariant. -/
def Obligations.ErrorIsSticky : Prop :=
  ∀ s t : State, (s.drv = .error ↔ s.err ≠ .none) → s.err ≠ .none → step s = .next t →
    t.err = s.err ∨ (∃ rest, s.inputs = .reset :: rest) ∨
      ∃ a rest, s.inputs = .access a :: rest ∧ a.offset = 0x000 ∧ a.kind = .write 0x00000001

/-- R242: the table of SEQUENCE, in the driver states IDLE, READ and DONE, and the HREG writes. COMPRESS and FINAL that
complete leave DRV = IDLE. In the error state every command but INIT is ignored. -/
def Obligations.SequenceTable : Prop :=
  (∀ (s : State) (i : Instr), s.err ≠ .none → i ≠ .init → exec i s = .next s) ∧
  ∀ s : State, s.err = .none → s.drv ≠ .error →
    (∀ i : Instr, exec i s = .next (s.raise .sequence) ↔
      (s.drv = .read ∧ (i = .compress ∨ (∃ c, i = .pad c) ∨ (∃ c, i = .final c) ∨ i = .format ∨ i = .start)) ∨
      (s.drv ≠ .read ∧ ∃ c, i = .chunk c)) ∧
    (∀ (i : Fin 8) v, writeReg (.hreg i) v s = .next (s.raise .sequence) ↔ s.drv = .read) ∧
    (∀ (i : Instr) t, (i = .compress ∨ ∃ c, i = .final c) → exec i s = .next t → t.err = .none → t.drv = .idle)

/-- R243, R244, R245: when, and only when, INPUT_TOO_LARGE, IO_ERROR and CONTRACT are raised. -/
def Obligations.ErrorCauses : Prop :=
  (∀ l : BitVec 128, 2 ^ 64 ≤ l.toNat ↔ l.extractLsb' 64 64 ≠ 0) ∧
  ∀ (s : State) (i : Instr), s.err = .none →
    (exec i s = .next (s.raise .inputTooLarge) ↔
      s.drv ≠ .read ∧ (i = .start ∨ ∃ c, c ≤ 64 ∧ (i = .pad c ∨ i = .final c)) ∧
        ∃ l : BitVec 128, s.holdsLen l ∧ 2 ^ 64 ≤ l.toNat) ∧
    (exec i s = .next (s.raise .ioError) ↔ s.drv = .read ∧ ∃ c, i = .chunk c ∧ c < min 64 s.rem.toNat) ∧
    (exec i s = .next (s.raise .contract) ↔
      (s.drv ≠ .read ∧ ∃ c, 64 < c ∧ (i = .pad c ∨ i = .final c)) ∨
      (s.drv = .read ∧ ∃ c, i = .chunk c ∧ min 64 s.rem.toNat < c) ∨
      (s.drv ≠ .read ∧ i = .start ∧ ∃ l : BitVec 128, s.holdsLen l ∧ l.toNat < 2 ^ 64 ∧ l.toNat % 8 ≠ 0))

/-! ### Whole-machine rules -/

/-- The column "core writes" of R20's table: which commands may change each register. No command changes a byte of LEN
or BLK, BUSY, or what the model keeps beside the registers. -/
def Obligations.CoreWritesTable : Prop :=
  ∀ (i : Instr) (s t : State), exec i s = .next t →
    (t.hreg ≠ s.hreg → i = .init ∨ i = .start ∨ i = .compress ∨ (∃ c, i = .final c) ∨ ∃ c, i = .chunk c) ∧
    (∀ x, x < 0x080 → t.mem.read x = s.mem.read x) ∧
    ((∃ x, 0x080 ≤ x ∧ x < 0x100 ∧ t.mem.read x ≠ s.mem.read x) →
      (∃ c, i = .pad c) ∨ (∃ c, i = .final c) ∨ ∃ c, i = .chunk c) ∧
    ((∃ x, 0x100 ≤ x ∧ x < 0x140 ∧ t.mem.read x ≠ s.mem.read x) → i = .format ∨ ∃ c, i = .chunk c) ∧
    (∀ x, 0x140 ≤ x → t.mem.read x = s.mem.read x) ∧
    (t.err ≠ s.err → i = .init ∨ t = s.raise t.err) ∧
    (t.drv ≠ s.drv → i = .init ∨ i = .start ∨ i = .compress ∨ (∃ c, i = .final c) ∨ (∃ c, i = .chunk c) ∨
      t = s.raise t.err) ∧
    (t.dv ≠ s.dv → i = .init ∨ i = .start ∨ i = .compress ∨ (∃ c, i = .final c) ∨ i = .format ∨ (∃ c, i = .chunk c) ∨
      t = s.raise t.err) ∧
    (t.padcnt ≠ s.padcnt → i = .init ∨ (∃ c, i = .pad c) ∨ (∃ c, i = .final c) ∨ ∃ c, i = .chunk c) ∧
    t.busy = s.busy ∧
    (t.rem ≠ s.rem → i = .init ∨ i = .start ∨ ∃ c, i = .chunk c) ∧
    (t.dlen ≠ s.dlen → i = .start) ∧
    t.inputs = s.inputs ∧ t.reads = s.reads ∧ t.owner = s.owner ∧ t.freeReads = s.freeReads

/-- R190: a command changes DRV only along the rows of the driver's table. The premise is R27's invariant. -/
def Obligations.DriverTransitions : Prop :=
  ∀ (i : Instr) (s t : State), (s.drv = .error ↔ s.err ≠ .none) → exec i s = .next t → t.drv ≠ s.drv →
    ((s.drv = .idle ∨ s.drv = .done) ∧ i = .start ∧ t.drv = .read ∧
      ∃ l : BitVec 128, s.holdsLen l ∧ l.toNat < 2 ^ 64 ∧ l.toNat % 8 = 0) ∨
    (s.drv = .read ∧ i = .chunk s.rem.toNat ∧ s.rem.toNat ≤ 64 ∧ t.drv = .done) ∨
    (s.drv ≠ .error ∧ t.drv = .error ∧ t.err ≠ .none) ∨
    (i = .init ∧ t.drv = .idle) ∨
    (s.drv = .done ∧ (i = .compress ∨ ∃ c, i = .final c) ∧ t.drv = .idle)

/-- R28: after any access, DV = 1 only if the access was FORMAT or the chunk that completed the driver, or DV was 1
before and neither HREG nor DIGEST has changed. The premise is part of the invariant (DV = 0 in READ, R192, R194). -/
def Obligations.DigestValidCauses : Prop :=
  ∀ (r : WindowReg) (k : AccessKind) (s t : State), (s.drv = .read → s.dv = false) → accessReg r k s = .next t →
    t.dv = true →
    (r = .cmd ∧ k = .write 0x00000005 ∧ t.holdsDigest t.hreg) ∨
    (r = .cmd ∧ (∃ c, c ≤ 64 ∧ k = .write (encode (.chunk c))) ∧ t.drv = .done ∧ t.holdsDigest t.hreg) ∨
    (s.dv = true ∧ t.hreg = s.hreg ∧ ∀ x, 0x100 ≤ x → x < 0x140 → t.mem.read x = s.mem.read x)

/-! ### The register window -/

/-- R53: the map of the window. The named offsets, that an offset names the register whose offset it is, and that the
offsets that name none are the reserved ones. -/
def Obligations.WindowMap : Prop :=
  WindowReg.cmd.offset = 0x000 ∧ WindowReg.status.offset = 0x004 ∧ WindowReg.rem0.offset = 0x140 ∧
  WindowReg.rem1.offset = 0x144 ∧ (∀ i, (WindowReg.len i).offset = 0x010 + 4 * i) ∧
  (∀ i, (WindowReg.hreg i).offset = 0x020 + 4 * i) ∧ (∀ i, (WindowReg.blkw i).offset = 0x040 + 4 * i) ∧
  (∀ i, (WindowReg.padw i).offset = 0x080 + 4 * i) ∧ (∀ i, (WindowReg.digw i).offset = 0x100 + 4 * i) ∧
  (∀ o r, o < 0x200 → o % 4 = 0 → (windowReg o = some r ↔ r.offset = o)) ∧
  (∀ o, o < 0x200 → o % 4 = 0 → (windowReg o = none ↔ o = 0x008 ∨ o = 0x00C ∨ 0x148 ≤ o))

/-- R57, R23: what a host write does, in every driver state and error state. A write of HREG[i] sets the word and
clears DV, except in READ, where it raises SEQUENCE and leaves HREG as it is; a read of HREG[i] returns it and has no
other effect. -/
def Obligations.HostWrites : Prop :=
  ∀ (s : State) (v : Word),
    (∀ i, decode v = .ok i → accessReg .cmd (.write v) s = exec i s) ∧
    (∀ k : Fin 4, ∃ t, accessReg (.len k) (.write v) s = .next t ∧ t = { s with mem := t.mem } ∧
      s.sameBytesOutside t (0x010 + 4 * k) 4 ∧ readReg (.len k) t = .ok v ∧
      (∀ l, t.holdsLen l → l.extractLsb' (32 * k) 32 = v) ∧
      (∀ l, s.holdsLen l → ∃ l', t.holdsLen l' ∧
        ∀ k' : Fin 4, k' ≠ k → l'.extractLsb' (32 * k') 32 = l.extractLsb' (32 * k') 32)) ∧
    (∀ i : Fin 16, ∃ t, accessReg (.blkw i) (.write v) s = .next t ∧ t = { s with mem := t.mem } ∧
      s.sameBytesOutside t (0x040 + 4 * i) 4 ∧
      t.mem.read (0x040 + 4 * i) = some (v.extractLsb' 24 8) ∧
      t.mem.read (0x040 + 4 * i + 1) = some (v.extractLsb' 16 8) ∧
      t.mem.read (0x040 + 4 * i + 2) = some (v.extractLsb' 8 8) ∧
      t.mem.read (0x040 + 4 * i + 3) = some (v.extractLsb' 0 8)) ∧
    (∀ i : Fin 8,
      (s.drv ≠ .read → accessReg (.hreg i) (.write v) s = .next { s with hreg := s.hreg.set i v, dv := false }) ∧
      (s.drv = .read → accessReg (.hreg i) (.write v) s = .next (s.raise .sequence) ∧
        (s.raise .sequence).hreg = s.hreg) ∧
      (∃ t, accessReg (.hreg i) .read s = .next t ∧
        t = { s with reads := s.reads ++ [s.hreg[i]], freeReads := t.freeReads }))

/-- R58, R52: a host read changes no register, returns the register's value, and returns it again; a word with an
unwritten byte is a model fault. CMD reads 0 (R56). The words of BLKW, PADW and DIGW are packed big-endian (R54); that
the four bytes inside a LEN word are kept in that order too is the model's choice, which no access can observe (log
entry 4). How the returned words are kept is the model's choice (log entry 2), and so is the free-value counter that a
STATUS read with BUSY = 1 advances (log entry 7). -/
def Obligations.HostReads : Prop :=
  ∀ s : State,
    (∀ r v, readReg r s = .ok v → ∃ t, accessReg r .read s = .next t ∧
      t = { s with reads := s.reads ++ [v], freeReads := t.freeReads } ∧
      (s.busy = false → t.freeReads = s.freeReads ∧ readReg r t = .ok v)) ∧
    readReg .cmd s = .ok 0 ∧ (∀ i : Fin 8, readReg (.hreg i) s = .ok s.hreg[i]) ∧
    (∀ r, ((∃ i, r = .len i) ∨ (∃ i, r = .blkw i) ∨ (∃ i, r = .padw i) ∨ ∃ i, r = .digw i) →
      (s.lacks r.offset 4 → faultsUnwritten (accessReg r .read s)) ∧
      (∀ b0 b1 b2 b3 : Byte, s.holdsBytes r.offset [b0, b1, b2, b3] → readReg r s = .ok (b0 ++ b1 ++ b2 ++ b3)))

/-- R51, R56: within the window, from the driving host and with BUSY = 0, an access is a bus error exactly when it is
not 32 bits wide, not aligned, at a reserved offset, or a write to STATUS, PADW, DIGW or REM. A read of CMD returns 0.
-/
def Obligations.BusErrors : Prop :=
  ∀ (s : State) (a : Access), foreignHost a s = false → s.busy = false → a.offset < 0x200 →
    ((∃ f, hostAccess a s = .fault f ∧ f.isBusError = true) ↔
      a.width ≠ 4 ∨ a.offset % 4 ≠ 0 ∨ a.offset = 0x008 ∨ a.offset = 0x00C ∨ 0x148 ≤ a.offset ∨
        ((∃ v, a.kind = .write v) ∧ (a.offset = 0x004 ∨ (0x080 ≤ a.offset ∧ a.offset < 0x148)))) ∧
    readReg .cmd s = .ok 0

/-- R280: while BUSY = 1 every access but a STATUS read is a model fault, and a STATUS read shows BUSY = 1. That BUSY is
bit 16 and that the reserved bits read 0 are R29 and R30 (10_state.md §4). The other fields are a free value, the
model's form of "unspecified" (log entry 7). That the fault has the name `accessWhileBusy` even where the access is also
misaligned, of another width or at an offset it may not use is the order the model chose among several faults of one
access (log entry 5). The host that the read leaves recorded is log entry 6. -/
def Obligations.BusyAccesses : Prop :=
  ∀ (s : State) (a : Access), foreignHost a s = false → s.busy = true →
    (¬ (a.kind = .read ∧ a.width = 4 ∧ a.offset = 0x004) → hostAccess a s = .fault .accessWhileBusy) ∧
    (a.kind = .read ∧ a.width = 4 ∧ a.offset = 0x004 → ∃ t v, hostAccess a s = .next t ∧ t.reads = s.reads ++ [v] ∧
      v.getLsbD 16 = true ∧ (∀ b, b = 3 ∨ b = 7 ∨ (10 ≤ b ∧ b < 16) ∨ 17 ≤ b → v.getLsbD b = false) ∧
      t = { s with reads := t.reads, owner := t.owner, freeReads := t.freeReads })

/-- R63, R247: an access from a host other than the one that drives the instance is a model fault; the first access
decides who drives it. That the first access decides is the model's choice (log entry 6), and so is that the fault has
the name `secondHost` even where the access is also misaligned, of another width, at an offset it may not use or made
while BUSY = 1 (log entry 5: the order among several faults of one access). -/
def Obligations.SecondHostFaults : Prop :=
  ∀ (s : State) (a : Access),
    (∀ h, s.owner = some h → a.host ≠ h → hostAccess a s = .fault (.secondHost a.host)) ∧
    (∀ t, hostAccess a s = .next t → t.owner = some a.host)

/-- The layout of STATUS (10_state.md §4): ERR in bits 2:0, DRV in 5:4, DV in 6, PADCNT in 9:8, BUSY in 16, every other
bit 0. -/
def Obligations.StatusLayout : Prop :=
  ∀ s : State, s.busy = false →
    ∃ v : Word, readReg .status s = .ok v ∧
      v.toNat = (match s.err with
          | .none => 0 | .inputTooLarge => 1 | .ioError => 2 | .contract => 3 | .sequence => 4 | .illegalCmd => 5) +
        16 * (match s.drv with | .idle => 0 | .read => 1 | .done => 2 | .error => 3) + 64 * s.dv.toNat +
        256 * (match s.padcnt with | .zero => 0 | .one => 1 | .two => 2)

/-- R55: LEN and REM are split into window words least significant first. -/
def Obligations.WideRegisterWords : Prop :=
  ∀ s : State,
    (∀ l : BitVec 128, s.holdsLen l → ∀ k : Fin 4, readReg (.len k) s = .ok (l.extractLsb' (32 * k) 32)) ∧
    (∀ l : BitVec 128, s.holdsLen l ↔ fetchLen s.mem = .ok l) ∧
    (∃ lo hi : Word, readReg .rem0 s = .ok lo ∧ readReg .rem1 s = .ok hi ∧
      s.rem.toNat = hi.toNat * 2 ^ 32 + lo.toNat)

/-- R88, `wrlen L`: its four accesses, served in order, leave LEN = L (R57 says what each write does) and every other
register and byte as before. That they wait in a list of inputs that steps take off is the model's choice (log entry
1), and so is that they leave their host recorded as the one that drives the instance (log entry 6). -/
def Obligations.WrlenWritesLen : Prop :=
  ∀ (s : State) (host : Nat) (l : BitVec 128) (rest : List Input),
    s.inputs = ((HostLine.wrlen l).accesses host).map Input.access ++ rest →
    (s.owner = none ∨ s.owner = some host) → s.busy = false →
    ∃ t, Host.Core.run Sys2Proof.core 4 s = .next t ∧ t.holdsLen l ∧ s.sameBytesOutside t 0x010 16 ∧
      t = { s with mem := t.mem, inputs := rest, owner := some host }

/-- R88, `wrblk s`: its accesses, served in order, leave the bytes in BLK, the last word filled up with 0x00 (R57 says
what each write does), and the BLK bytes beyond those words and every other register and byte as before. That they wait
in a list of inputs that steps take off is the model's choice (log entry 1), and so is that, where there is an access
at all, its host is left recorded as the one that drives the instance (log entry 6). -/
def Obligations.WrblkWritesBlk : Prop :=
  ∀ (s : State) (host : Nat) (bs : List Byte) (rest : List Input), bs.length ≤ 64 →
    s.inputs = ((HostLine.wrblk bs).accesses host).map Input.access ++ rest →
    (s.owner = none ∨ s.owner = some host) → s.busy = false →
    ∃ t, Host.Core.run Sys2Proof.core ((bs.length + 3) / 4) s = .next t ∧ t.holdsBytes 0x040 bs ∧
      (∀ j, bs.length ≤ j → j < 4 * ((bs.length + 3) / 4) → t.mem.read (0x040 + j) = some 0) ∧
      s.sameBytesOutside t 0x040 (4 * ((bs.length + 3) / 4)) ∧
      t = { s with mem := t.mem, inputs := rest, owner := t.owner } ∧ (bs ≠ [] → t.owner = some host)

/-! ### What a command does not depend on -/

/-- "No command reads a byte of BLK at or beyond CLEN when it pads" (R60, marked as derived). Two states that differ
only in such bytes give next states that differ only in such bytes. -/
def Obligations.PaddingReadsOnlyTheChunk : Prop :=
  ∀ (c : Nat) (s s' t : State) (i : Instr),
    (i = .pad c ∨ i = .final c ∨ (i = .chunk c ∧ s.rem.toNat ≤ 64)) →
    s' = { s with mem := s'.mem } →
    (∀ x, x < 0x040 + c ∨ 0x080 ≤ x → s'.mem.read x = s.mem.read x) → exec i s = .next t →
    ∃ t', exec i s' = .next t' ∧ t' = { t with mem := t'.mem } ∧
      ∀ x, x < 0x040 + c ∨ 0x080 ≤ x → t'.mem.read x = t.mem.read x

/-- R25, R34: a write to LEN during READ has no effect on the computation in progress. Two states that differ only in
the bytes of LEN give, for every CHUNK, next states that differ only in the bytes of LEN. -/
def Obligations.ChunkDoesNotReadLen : Prop :=
  ∀ (c : Nat) (s s' t : State), s' = { s with mem := s'.mem } →
    (∀ x, x < 0x010 ∨ 0x020 ≤ x → s'.mem.read x = s.mem.read x) → exec (.chunk c) s = .next t →
    ∃ t', exec (.chunk c) s' = .next t' ∧ t' = { t with mem := t'.mem } ∧
      ∀ x, x < 0x010 ∨ 0x020 ≤ x → t'.mem.read x = t.mem.read x

/-! ### The invariant -/

/-- Every step keeps the invariant `State.Inv`, from every state that meets it. -/
def Obligations.StepKeepsInvariant : Prop := ∀ s t : State, s.Inv → step s = .next t → t.Inv

/-- The state after reset meets the invariant. -/
def Obligations.ResetMeetsInvariant : Prop := State.reset.Inv

/-! ### Hashing -/

/-- R191, marked as derived: a stream of N bytes makes max(1, ceil(N/64)) chunks, each of 64 bytes but the last, which
has 1 to 64 bytes (0 when N = 0); the chunks are the stream. Its padded message has ceil((N+9)/64) blocks, one more
than the chunks exactly when the last chunk has 56 to 64 bytes. -/
def Obligations.ChunkAndBlockCounts : Prop :=
  ∀ m : List Byte,
    (chunksOf m).length = max 1 ((m.length + 63) / 64) ∧ (chunksOf m).flatten = m ∧
    (∀ j, j + 1 < (chunksOf m).length → ((chunksOf m)[j]?).map List.length = some 64) ∧
    (∃ last, (chunksOf m).getLast? = some last ∧ last.length ≤ 64 ∧ (last.length = 0 ↔ m.length = 0) ∧
      (paddedMessage m).length = 64 * ((m.length + 9 + 63) / 64) ∧
      (m.length + 9 + 63) / 64 = (chunksOf m).length + (if 56 ≤ last.length then 1 else 0))

/-- R197, marked as derived: for every stream of N bytes with 8N < 2^64, START with LEN = 8N and then the stream's
chunks, given in order, all complete; they leave DRV = DONE, ERR = 0, DV = 1, REM = 0, HREG = the fold of Compress from
H0 over the blocks of the padded message P = M ++ [0x80] ++ zeros((55 - N) mod 64) ++ BE64bytes(8N), and DIGEST its
rendering. -/
def Obligations.DriverHashesStream : Prop :=
  ∀ (m : List Byte) (s : State) (l : BitVec 128), 8 * m.length < 2 ^ 64 → s.err = .none → s.drv ≠ .read →
    s.holdsLen l → l.toNat = 8 * m.length →
    ∃ t₀ t, exec .start s = .next t₀ ∧ giveChunks (chunksOf m) t₀ = .next t ∧
      t.completed ∧ t.rem = 0 ∧
      t.hreg = (List.range ((paddedMessage m).length / 64)).foldl (fun h j => compress h (blk (paddedMessage m) j))
        initialHash ∧
      t.holdsDigest t.hreg

/-- R166, marked as derived: the incremental path. After INIT, COMPRESS on each of the first q blocks, FINAL on the
remaining bytes (0 to 64 of them) with LEN = 8N, and FORMAT all complete, and leave the HashState and the digest the
driver gives. -/
def Obligations.IncrementalHashesMessage : Prop :=
  ∀ (m : List Byte) (q : Nat) (s : State) (l : BitVec 128), 8 * m.length < 2 ^ 64 → 64 * q ≤ m.length →
    m.length ≤ 64 * q + 64 → s.holdsLen l → l.toNat = 8 * m.length →
    ∃ t₀ t₁ t₂ t₃, exec .init s = .next t₀ ∧ giveBlocks ((List.range q).map (blk m)) t₀ = .next t₁ ∧
      exec (.final (m.length - 64 * q)) (t₁.store blkBase (m.drop (64 * q))) = .next t₂ ∧
      exec .format t₂ = .next t₃ ∧ t₃.hreg = messageHash m ∧ t₃.dv = true ∧ t₃.err = .none ∧
      t₃.holdsDigest (messageHash m)

/-! ### Several instances -/

/-- R255, R66: an access reaches only the instance whose window holds its address, at its offset from that base; every
other instance keeps all it has. That instance takes the state its access leads to; a model fault of the access is
recorded there, its state stays as it was and nothing ends for the others; after a recorded fault its accesses change
nothing. An access to some instance's window always answers a next platform. The form of the platform, that a fault is
recorded by instance, and that an access outside every window does not complete, are the model's choices (log entry
10). -/
def Obligations.InstancesAreIndependent : Prop :=
  ∀ (a : BusAccess) (p : Platform), p.wf →
    (∀ p', Platform.access a p = .next p' →
      p'.map Slot.base = p.map Slot.base ∧
      ∃ (k : Nat) (sl sl' : Slot), p[k]? = some sl ∧ sl.base ≤ a.addr ∧ a.addr < sl.base + 0x200 ∧
        p'[k]? = some sl' ∧ (∀ j, j ≠ k → p'[j]? = p[j]?) ∧
        (∀ (j : Nat) (sl'' : Slot), j ≠ k → p[j]? = some sl'' →
          ¬ (sl''.base ≤ a.addr ∧ a.addr < sl''.base + 0x200))) ∧
    (∀ (k : Nat) (sl : Slot), p[k]? = some sl → sl.base ≤ a.addr → a.addr < sl.base + 0x200 →
      ∃ (p' : Platform) (sl' : Slot), Platform.access a p = .next p' ∧ p'[k]? = some sl' ∧
        (∀ f, sl.fault = some f → sl' = sl) ∧
        (sl.fault = none →
          (∃ t, hostAccess ⟨a.host, a.width, a.addr - sl.base, a.kind⟩ sl.core = .next t ∧
            sl' = ⟨sl.base, t, none⟩) ∨
          (∃ f, hostAccess ⟨a.host, a.width, a.addr - sl.base, a.kind⟩ sl.core = .fault f ∧
            sl' = ⟨sl.base, sl.core, some f⟩)))

/-- "Each instance starts at reset (rule R270)" (R255): on the platform with given bases every instance stands at its
base in the state after reset, with no fault recorded; aligned and distinct bases make it well formed. A reset of one
instance always completes, gives it the registers of the state after reset (R270) and leaves every other instance as it
is. That a reset keeps the recorded fault and the model's own fields is the model's choice (log entries 10 and 15). -/
def Obligations.InstancesStartAtReset : Prop :=
  (∀ bases : List Nat,
    (Platform.reset bases).map Slot.base = bases ∧
    (∀ sl ∈ Platform.reset bases, sl.core = State.reset ∧ sl.fault = none) ∧
    (bases ≠ [] → (∀ b ∈ bases, b % 0x200 = 0) → bases.Nodup → (Platform.reset bases).wf)) ∧
  ∀ (p : Platform) (k : Nat) (sl : Slot), p.wf → p[k]? = some sl →
    ∃ (p' : Platform) (sl' : Slot), Platform.resetInstance sl.base p = .next p' ∧ p'[k]? = some sl' ∧
      (∀ j, j ≠ k → p'[j]? = p[j]?) ∧ sl'.base = sl.base ∧ sl'.fault = sl.fault ∧
      sl'.core = { State.reset with
        inputs := sl.core.inputs, reads := sl.core.reads, owner := sl.core.owner, freeReads := sl.core.freeReads }

/-- "Instances share nothing, so concurrent computations on different instances cannot affect each other" (R255): if
events for any of the instances, in any order, run on a platform, then each instance ends as if the events for it had
been given to it alone. Faults recorded on other instances change nothing for it. The form of the platform is the
model's choice (log entry 10). -/
def Obligations.InstanceSeesOnlyItsEvents : Prop :=
  ∀ (es : List BusEvent) (p p' : Platform), p.wf → Platform.run es p = .next p' →
    ∀ (k : Nat) (sl : Slot), p[k]? = some sl → ∃ sl', p'[k]? = some sl' ∧
      Slot.run ((es.filter fun e => e.selects sl.base).map fun e => e.atBase sl.base) sl = .next sl'
end

