-- ==== Sys2Proof/Laws/Algorithm.lean ====
section
/-! SUPPORT. Lengths and shapes of the pure functions. -/

namespace Sys2Proof.Machine

@[simp] theorem wordBytes_length (v : Word) : (wordBytes v).length = 4 := rfl

@[simp] theorem be64Bytes_length (l : BitVec 64) : (be64Bytes l).length = 8 := rfl

@[simp] theorem zeros_length (k : Nat) : (zeros k).length = k := by simp [zeros]

/-- Bit `i` of four bytes packed big-endian. -/
theorem packed_getLsbD (a b c d : Byte) (i : Nat) :
    BitVec.getLsbD (w := 8 + 8 + 8 + 8) (a ++ b ++ c ++ d) i =
      if i < 8 then d.getLsbD i else if i < 16 then c.getLsbD (i - 8)
      else if i < 24 then b.getLsbD (i - 16) else a.getLsbD (i - 24) := by
  simp only [BitVec.getLsbD_append]
  by_cases h1 : i < 8
  · simp [h1]
  by_cases h2 : i < 16
  · simp [h1, h2, show i - 8 < 8 by omega]
  by_cases h3 : i < 24
  · simp [h1, h2, h3, show ¬ i - 8 < 8 by omega, show i - 8 - 8 = i - 16 by omega, show i - 16 < 8 by omega]
  · simp [h1, h2, h3, show ¬ i - 8 < 8 by omega, show ¬ i - 8 - 8 < 8 by omega, show i - 8 - 8 - 8 = i - 24 by omega]

/-- Packing the bytes of a word gives the word back (R54). -/
theorem be32_wordBytes (v : Word) : be32 (wordBytes v) 0 = v := by
  apply BitVec.eq_of_getLsbD_eq
  intro i hi
  refine (packed_getLsbD _ _ _ _ i).trans ?_
  simp only [wordBytes, List.getD_cons_zero, List.getD_cons_succ, Nat.zero_add, BitVec.getLsbD_extractLsb']
  split
  · simp [*]
  split
  · simp [show i - 8 < 8 by omega, show 8 + (i - 8) = i by omega]
  split
  · simp [show i - 16 < 8 by omega, show 16 + (i - 16) = i by omega]
  · simp [show i - 24 < 8 by omega, show 24 + (i - 24) = i by omega]

@[simp] theorem hexWord_length (v : Word) : (hexWord v).length = 8 := by simp [hexWord]

@[simp] theorem hex_length (h : HashState) : (hex h).length = 64 := by
  simp [hex, List.length_flatMap]

theorem pad_length (s : List Byte) (l : BitVec 64) : (pad s l).length = s.length + 9 + zeroFill s.length := by
  simp [pad]; omega

/-- `Pad` gives one block up to 55 bytes and two from 56 to 64 (R143). -/
theorem pad_length_cases {s : List Byte} (h : s.length ≤ 64) (l : BitVec 64) :
    (s.length ≤ 55 ∧ (pad s l).length = 64) ∨ (56 ≤ s.length ∧ (pad s l).length = 128) := by
  rw [pad_length, zeroFill]
  omega

theorem extendSchedule_length (n : Nat) (w : List Word) : (extendSchedule n w).length = w.length + n := by
  induction n generalizing w with
  | zero => rfl
  | succ n ih => simp [extendSchedule, ih]; omega

@[simp] theorem parseBlock_length (b : List Byte) : (parseBlock b).length = 16 := by simp [parseBlock]

@[simp] theorem schedule_length (b : List Byte) : (schedule b).length = 64 := by
  simp [schedule, extendSchedule_length]

end Sys2Proof.Machine
end

