-- ==== Sys2Proof/Laws/Memory.lean ====
section
/-! SUPPORT. Laws of the byte buffers: reading after writing, the canonical form, and what a fetch answers. -/

namespace Sys2Proof.Machine.Memory

theorem read_append (m₁ m₂ : Memory) (a : Nat) :
    Memory.read (m₁ ++ m₂) a = (Memory.read m₁ a).or (Memory.read m₂ a) := by
  induction m₁ with
  | nil => simp [Memory.read]
  | cons c m ih =>
    obtain ⟨b, w⟩ := c
    by_cases h : a = b <;> simp [Memory.read, h, ih]

theorem read_filter (m : Memory) (p : Nat → Bool) (a : Nat) :
    Memory.read (m.filter fun c => p c.1) a = if p a then Memory.read m a else none := by
  induction m with
  | nil => simp [Memory.read]
  | cons c m ih =>
    obtain ⟨b, w⟩ := c
    by_cases hb : p b <;> by_cases h : a = b
    · subst h; simp [Memory.read, hb]
    · simp [Memory.read, hb, h, ih]
    · subst h; simp [hb, ih]
    · simp [Memory.read, hb, h, ih]

theorem read_run (a : Nat) (bs : List Byte) (x : Nat) :
    (Memory.run a bs).read x = if a ≤ x then bs[x - a]? else none := by
  induction bs generalizing a with
  | nil => simp [Memory.run, Memory.read]
  | cons v vs ih =>
    rcases Nat.lt_trichotomy x a with h | h | h
    · have h1 : x ≠ a := by omega
      have h2 : ¬ a ≤ x := by omega
      have h3 : ¬ a + 1 ≤ x := by omega
      simp [Memory.run, Memory.read, ih, h1, h2, h3]
    · subst h; simp [Memory.run, Memory.read]
    · have h1 : x ≠ a := by omega
      have h2 : a ≤ x := by omega
      have h3 : a + 1 ≤ x := by omega
      have h4 : x - a = (x - (a + 1)) + 1 := by omega
      simp [Memory.run, Memory.read, ih, h1, h2, h3, h4]

/-- A byte inside the written run reads as written. -/
theorem read_writeBytes_inside (m : Memory) {a x : Nat} {bs : List Byte} (h : a ≤ x) (h' : x < a + bs.length) :
    (m.writeBytes a bs).read x = bs[x - a]? := by
  have hx : ¬ x < a := by omega
  have hl : x - a < bs.length := by omega
  have hf : ¬ a + bs.length ≤ x := by omega
  rw [Memory.writeBytes, read_append, read_append, read_filter m (fun y => y < a), read_run,
    read_filter m (fun y => a + bs.length ≤ y)]
  simp [hx, h, hf, List.getElem?_eq_getElem hl]

/-- A byte outside the written run reads as before. -/
theorem read_writeBytes_outside (m : Memory) {a x : Nat} {bs : List Byte} (h : x < a ∨ a + bs.length ≤ x) :
    (m.writeBytes a bs).read x = m.read x := by
  rw [Memory.writeBytes, read_append, read_append, read_filter m (fun y => y < a), read_run,
    read_filter m (fun y => a + bs.length ≤ y)]
  rcases h with h | h
  · have h1 : ¬ a ≤ x := by omega
    have h2 : ¬ a + bs.length ≤ x := by omega
    simp [h, h1, h2]
  · have h1 : ¬ x < a := by omega
    have h2 : bs.length ≤ x - a := by omega
    simp [h1, h, h2]

theorem mem_run {a : Nat} {bs : List Byte} {c : Host.Cell} (h : c ∈ Memory.run a bs) :
    a ≤ c.1 ∧ c.1 < a + bs.length := by
  induction bs generalizing a with
  | nil => simp [Memory.run] at h
  | cons v vs ih =>
    simp only [Memory.run, List.mem_cons] at h
    rcases h with rfl | h
    · simp
    · have := ih h
      simp only [List.length_cons]
      omega

theorem run_wf (a : Nat) (bs : List Byte) : (Memory.run a bs).wf := by
  induction bs generalizing a with
  | nil => simp [Memory.wf, Memory.run]
  | cons v vs ih =>
    refine List.pairwise_cons.2 ⟨fun c hc => ?_, ih (a + 1)⟩
    have := mem_run hc
    simp only
    omega

/-- Writing keeps the canonical form. -/
theorem writeBytes_wf {m : Memory} (h : m.wf) (a : Nat) (bs : List Byte) : (m.writeBytes a bs).wf := by
  refine List.pairwise_append.2 ⟨List.pairwise_append.2 ⟨h.filter _, run_wf a bs, ?_⟩, h.filter _, ?_⟩
  · intro x hx y hy
    have hx' := of_decide_eq_true (List.mem_filter.1 hx).2
    have := mem_run hy
    omega
  · intro x hx y hy
    have hy' := of_decide_eq_true (List.mem_filter.1 hy).2
    rcases List.mem_append.1 hx with hx | hx
    · have hx' := of_decide_eq_true (List.mem_filter.1 hx).2
      omega
    · have := mem_run hx
      omega

/-- Writing buffer bytes lists buffer bytes only. -/
theorem writeBytes_inBuffers {m : Memory} (h : m.inBuffers) {a : Nat} {bs : List Byte}
    (hb : ∀ x, a ≤ x → x < a + bs.length → isBufferByte x) : (m.writeBytes a bs).inBuffers := by
  intro c hc
  rcases List.mem_append.1 hc with hc | hc
  · rcases List.mem_append.1 hc with hc | hc
    · exact h c (List.mem_filter.1 hc).1
    · have := mem_run hc
      exact hb c.1 this.1 this.2
  · exact h c (List.mem_filter.1 hc).1

/-- In canonical form, a listed cell is what its address reads as. -/
theorem read_eq_some_iff {m : Memory} (h : m.wf) (a : Nat) (v : Byte) : m.read a = some v ↔ (a, v) ∈ m := by
  induction m with
  | nil => simp [Memory.read]
  | cons c m ih =>
    obtain ⟨b, w⟩ := c
    obtain ⟨hb, hm⟩ := List.pairwise_cons.1 h
    by_cases hab : a = b
    · subst hab
      have hnot : ∀ x, (a, x) ∉ m := fun x hx => Nat.lt_irrefl a (hb (a, x) hx)
      simp [Memory.read, hnot, eq_comm]
    · simp [Memory.read, hab, ih hm]

/-- Equal memories are equal data: canonical memories that read alike are the same list. -/
theorem ext_of_wf {m m' : Memory} (h : m.wf) (h' : m'.wf) (hr : ∀ a, m.read a = m'.read a) : m = m' := by
  have key : ∀ c, c ∈ m ↔ c ∈ m' := fun ⟨a, v⟩ => by
    rw [← read_eq_some_iff h, ← read_eq_some_iff h', hr]
  have hn : m.Nodup := h.imp fun hxy heq => by subst heq; exact Nat.lt_irrefl _ hxy
  have hn' : m'.Nodup := h'.imp fun hxy heq => by subst heq; exact Nat.lt_irrefl _ hxy
  exact List.Perm.eq_of_pairwise (fun _ _ _ _ h₁ h₂ => absurd h₂ (Nat.lt_asymm h₁)) h h'
    ((List.perm_ext_iff_of_nodup hn hn').2 key)

/-! ### Fetching -/

theorem fetch_of_read {m : Memory} {a : Nat} {v : Byte} (h : m.read a = some v) : m.fetch a = .ok v := by
  simp [Memory.fetch, h]

theorem fetch_of_unwritten {m : Memory} {a : Nat} (h : m.read a = none) : m.fetch a = .error (.unwrittenByte a) := by
  simp [Memory.fetch, h]

/-- A fetch answers exactly the bytes that stand at its offsets. -/
theorem fetchBytes_eq_ok_iff (m : Memory) (a n : Nat) (bs : List Byte) :
    m.fetchBytes a n = .ok bs ↔ bs.length = n ∧ ∀ j < n, m.read (a + j) = bs[j]? := by
  induction n generalizing a bs with
  | zero => cases bs <;> simp [Memory.fetchBytes]
  | succ n ih =>
    constructor
    · intro h
      unfold Memory.fetchBytes Memory.fetch at h
      cases hv : m.read a with
      | none => simp [hv] at h
      | some v =>
        simp only [hv] at h
        cases hr : m.fetchBytes (a + 1) n with
        | error f => simp [hr] at h
        | ok vs =>
          simp only [hr, Except.ok.injEq] at h
          subst h
          obtain ⟨hl, hj⟩ := (ih _ _).1 hr
          refine ⟨by simp [hl], fun j hjn => ?_⟩
          cases j with
          | zero => simp [hv]
          | succ j => simpa [Nat.add_assoc, Nat.add_comm 1 j] using hj j (by omega)
    · rintro ⟨hl, hj⟩
      cases bs with
      | nil => simp at hl
      | cons v vs =>
        have h0 : m.read a = some v := by simpa using hj 0 (by omega)
        have hr : m.fetchBytes (a + 1) n = .ok vs := (ih _ _).2 ⟨by simpa using hl, fun j hjn => by
          simpa [Nat.add_assoc, Nat.add_comm 1 j] using hj (j + 1) (by omega)⟩
        simp [Memory.fetchBytes, fetch_of_read h0, hr]

/-- A fetch faults at the first unwritten byte. -/
theorem fetchBytes_eq_error {m : Memory} {a n j : Nat} (hj : j < n) (hw : ∀ i < j, m.read (a + i) ≠ none)
    (hu : m.read (a + j) = none) : m.fetchBytes a n = .error (.unwrittenByte (a + j)) := by
  induction j generalizing a n with
  | zero =>
    cases n with
    | zero => omega
    | succ n => simp [Memory.fetchBytes, fetch_of_unwritten (by simpa using hu)]
  | succ j ih =>
    cases n with
    | zero => omega
    | succ n =>
      obtain ⟨v, hv⟩ := Option.ne_none_iff_exists'.1 (hw 0 (by omega))
      have hr := ih (a := a + 1) (n := n) (by omega)
        (fun i hi => by simpa [Nat.add_assoc, Nat.add_comm 1 i] using hw (i + 1) (by omega))
        (by simpa [Nat.add_assoc, Nat.add_comm 1 j] using hu)
      simp [Memory.fetchBytes, fetch_of_read (by simpa using hv), hr, Nat.add_assoc, Nat.add_comm 1 j]

/-- A fetch that does not answer bytes faults on an unwritten byte. -/
theorem fetchBytes_error_cases {m : Memory} {a n : Nat} {f : Fault} (h : m.fetchBytes a n = .error f) :
    ∃ j < n, (∀ i < j, m.read (a + i) ≠ none) ∧ m.read (a + j) = none ∧ f = .unwrittenByte (a + j) := by
  by_cases hall : ∀ j < n, m.read (a + j) ≠ none
  · have hok : m.fetchBytes a n = .ok ((List.range n).map fun j => (m.read (a + j)).getD 0) := by
      refine (fetchBytes_eq_ok_iff ..).2 ⟨by simp, fun j hj => ?_⟩
      obtain ⟨v, hv⟩ := Option.ne_none_iff_exists'.1 (hall j hj)
      simp [hj, hv]
    simp [hok] at h
  · have hex : ∃ j, j < n ∧ m.read (a + j) = none := by simpa using hall
    classical
    have hs := Nat.find_spec hex
    have hw : ∀ i < Nat.find hex, m.read (a + i) ≠ none := fun i hi hn =>
      Nat.find_min hex hi ⟨by omega, hn⟩
    have := fetchBytes_eq_error hs.1 hw hs.2
    rw [this] at h
    exact ⟨Nat.find hex, hs.1, hw, hs.2, by simpa using h.symm⟩

/-- Fetching the run just written gives it back. -/
theorem fetchBytes_writeBytes (m : Memory) (a : Nat) (bs : List Byte) :
    (m.writeBytes a bs).fetchBytes a bs.length = .ok bs :=
  (fetchBytes_eq_ok_iff ..).2 ⟨rfl, fun j hj => by
    rw [read_writeBytes_inside m (by omega) (by omega)]; simp⟩

/-- A fetch depends only on the bytes at its offsets. -/
theorem fetchBytes_congr {m m' : Memory} {a n : Nat} (h : ∀ x, a ≤ x → x < a + n → m.read x = m'.read x) :
    m.fetchBytes a n = m'.fetchBytes a n := by
  induction n generalizing a with
  | zero => rfl
  | succ n ih =>
    have h0 : m.fetch a = m'.fetch a := by simp [Memory.fetch, h a (by omega) (by omega)]
    have h1 := ih (a := a + 1) fun x hx hx' => h x (by omega) (by omega)
    simp [Memory.fetchBytes, h0, h1]

end Sys2Proof.Machine.Memory
end

