-- ==== Sys2Proof/Laws/State.lean ====
section
/-! SUPPORT. One lemma per field per update of State, so that no proof unfolds an update. -/

namespace Sys2Proof.Machine.State

variable (s : State)

@[simp] theorem setHash_hreg (h : HashState) : (s.setHash h).hreg = h := rfl
@[simp] theorem setHash_mem (h : HashState) : (s.setHash h).mem = s.mem := rfl
@[simp] theorem setHash_err (h : HashState) : (s.setHash h).err = s.err := rfl
@[simp] theorem setHash_drv (h : HashState) : (s.setHash h).drv = s.drv := rfl
@[simp] theorem setHash_dv (h : HashState) : (s.setHash h).dv = s.dv := rfl
@[simp] theorem setHash_padcnt (h : HashState) : (s.setHash h).padcnt = s.padcnt := rfl
@[simp] theorem setHash_busy (h : HashState) : (s.setHash h).busy = s.busy := rfl
@[simp] theorem setHash_rem (h : HashState) : (s.setHash h).rem = s.rem := rfl
@[simp] theorem setHash_dlen (h : HashState) : (s.setHash h).dlen = s.dlen := rfl
@[simp] theorem setHash_inputs (h : HashState) : (s.setHash h).inputs = s.inputs := rfl
@[simp] theorem setHash_reads (h : HashState) : (s.setHash h).reads = s.reads := rfl
@[simp] theorem setHash_owner (h : HashState) : (s.setHash h).owner = s.owner := rfl
@[simp] theorem setHash_freeReads (h : HashState) : (s.setHash h).freeReads = s.freeReads := rfl

@[simp] theorem setErr_hreg (e : ErrCode) : (s.setErr e).hreg = s.hreg := rfl
@[simp] theorem setErr_mem (e : ErrCode) : (s.setErr e).mem = s.mem := rfl
@[simp] theorem setErr_err (e : ErrCode) : (s.setErr e).err = e := rfl
@[simp] theorem setErr_drv (e : ErrCode) : (s.setErr e).drv = s.drv := rfl
@[simp] theorem setErr_dv (e : ErrCode) : (s.setErr e).dv = s.dv := rfl
@[simp] theorem setErr_padcnt (e : ErrCode) : (s.setErr e).padcnt = s.padcnt := rfl
@[simp] theorem setErr_busy (e : ErrCode) : (s.setErr e).busy = s.busy := rfl
@[simp] theorem setErr_rem (e : ErrCode) : (s.setErr e).rem = s.rem := rfl
@[simp] theorem setErr_dlen (e : ErrCode) : (s.setErr e).dlen = s.dlen := rfl
@[simp] theorem setErr_inputs (e : ErrCode) : (s.setErr e).inputs = s.inputs := rfl
@[simp] theorem setErr_reads (e : ErrCode) : (s.setErr e).reads = s.reads := rfl
@[simp] theorem setErr_owner (e : ErrCode) : (s.setErr e).owner = s.owner := rfl
@[simp] theorem setErr_freeReads (e : ErrCode) : (s.setErr e).freeReads = s.freeReads := rfl

@[simp] theorem setDrv_hreg (d : DrvState) : (s.setDrv d).hreg = s.hreg := rfl
@[simp] theorem setDrv_mem (d : DrvState) : (s.setDrv d).mem = s.mem := rfl
@[simp] theorem setDrv_err (d : DrvState) : (s.setDrv d).err = s.err := rfl
@[simp] theorem setDrv_drv (d : DrvState) : (s.setDrv d).drv = d := rfl
@[simp] theorem setDrv_dv (d : DrvState) : (s.setDrv d).dv = s.dv := rfl
@[simp] theorem setDrv_padcnt (d : DrvState) : (s.setDrv d).padcnt = s.padcnt := rfl
@[simp] theorem setDrv_busy (d : DrvState) : (s.setDrv d).busy = s.busy := rfl
@[simp] theorem setDrv_rem (d : DrvState) : (s.setDrv d).rem = s.rem := rfl
@[simp] theorem setDrv_dlen (d : DrvState) : (s.setDrv d).dlen = s.dlen := rfl
@[simp] theorem setDrv_inputs (d : DrvState) : (s.setDrv d).inputs = s.inputs := rfl
@[simp] theorem setDrv_reads (d : DrvState) : (s.setDrv d).reads = s.reads := rfl
@[simp] theorem setDrv_owner (d : DrvState) : (s.setDrv d).owner = s.owner := rfl
@[simp] theorem setDrv_freeReads (d : DrvState) : (s.setDrv d).freeReads = s.freeReads := rfl

@[simp] theorem setDv_hreg (b : Bool) : (s.setDv b).hreg = s.hreg := rfl
@[simp] theorem setDv_mem (b : Bool) : (s.setDv b).mem = s.mem := rfl
@[simp] theorem setDv_err (b : Bool) : (s.setDv b).err = s.err := rfl
@[simp] theorem setDv_drv (b : Bool) : (s.setDv b).drv = s.drv := rfl
@[simp] theorem setDv_dv (b : Bool) : (s.setDv b).dv = b := rfl
@[simp] theorem setDv_padcnt (b : Bool) : (s.setDv b).padcnt = s.padcnt := rfl
@[simp] theorem setDv_busy (b : Bool) : (s.setDv b).busy = s.busy := rfl
@[simp] theorem setDv_rem (b : Bool) : (s.setDv b).rem = s.rem := rfl
@[simp] theorem setDv_dlen (b : Bool) : (s.setDv b).dlen = s.dlen := rfl
@[simp] theorem setDv_inputs (b : Bool) : (s.setDv b).inputs = s.inputs := rfl
@[simp] theorem setDv_reads (b : Bool) : (s.setDv b).reads = s.reads := rfl
@[simp] theorem setDv_owner (b : Bool) : (s.setDv b).owner = s.owner := rfl
@[simp] theorem setDv_freeReads (b : Bool) : (s.setDv b).freeReads = s.freeReads := rfl

@[simp] theorem setPadcnt_hreg (n : PadCount) : (s.setPadcnt n).hreg = s.hreg := rfl
@[simp] theorem setPadcnt_mem (n : PadCount) : (s.setPadcnt n).mem = s.mem := rfl
@[simp] theorem setPadcnt_err (n : PadCount) : (s.setPadcnt n).err = s.err := rfl
@[simp] theorem setPadcnt_drv (n : PadCount) : (s.setPadcnt n).drv = s.drv := rfl
@[simp] theorem setPadcnt_dv (n : PadCount) : (s.setPadcnt n).dv = s.dv := rfl
@[simp] theorem setPadcnt_padcnt (n : PadCount) : (s.setPadcnt n).padcnt = n := rfl
@[simp] theorem setPadcnt_busy (n : PadCount) : (s.setPadcnt n).busy = s.busy := rfl
@[simp] theorem setPadcnt_rem (n : PadCount) : (s.setPadcnt n).rem = s.rem := rfl
@[simp] theorem setPadcnt_dlen (n : PadCount) : (s.setPadcnt n).dlen = s.dlen := rfl
@[simp] theorem setPadcnt_inputs (n : PadCount) : (s.setPadcnt n).inputs = s.inputs := rfl
@[simp] theorem setPadcnt_reads (n : PadCount) : (s.setPadcnt n).reads = s.reads := rfl
@[simp] theorem setPadcnt_owner (n : PadCount) : (s.setPadcnt n).owner = s.owner := rfl
@[simp] theorem setPadcnt_freeReads (n : PadCount) : (s.setPadcnt n).freeReads = s.freeReads := rfl

@[simp] theorem setRem_hreg (r : BitVec 64) : (s.setRem r).hreg = s.hreg := rfl
@[simp] theorem setRem_mem (r : BitVec 64) : (s.setRem r).mem = s.mem := rfl
@[simp] theorem setRem_err (r : BitVec 64) : (s.setRem r).err = s.err := rfl
@[simp] theorem setRem_drv (r : BitVec 64) : (s.setRem r).drv = s.drv := rfl
@[simp] theorem setRem_dv (r : BitVec 64) : (s.setRem r).dv = s.dv := rfl
@[simp] theorem setRem_padcnt (r : BitVec 64) : (s.setRem r).padcnt = s.padcnt := rfl
@[simp] theorem setRem_busy (r : BitVec 64) : (s.setRem r).busy = s.busy := rfl
@[simp] theorem setRem_rem (r : BitVec 64) : (s.setRem r).rem = r := rfl
@[simp] theorem setRem_dlen (r : BitVec 64) : (s.setRem r).dlen = s.dlen := rfl
@[simp] theorem setRem_inputs (r : BitVec 64) : (s.setRem r).inputs = s.inputs := rfl
@[simp] theorem setRem_reads (r : BitVec 64) : (s.setRem r).reads = s.reads := rfl
@[simp] theorem setRem_owner (r : BitVec 64) : (s.setRem r).owner = s.owner := rfl
@[simp] theorem setRem_freeReads (r : BitVec 64) : (s.setRem r).freeReads = s.freeReads := rfl

@[simp] theorem setDlen_hreg (l : BitVec 64) : (s.setDlen l).hreg = s.hreg := rfl
@[simp] theorem setDlen_mem (l : BitVec 64) : (s.setDlen l).mem = s.mem := rfl
@[simp] theorem setDlen_err (l : BitVec 64) : (s.setDlen l).err = s.err := rfl
@[simp] theorem setDlen_drv (l : BitVec 64) : (s.setDlen l).drv = s.drv := rfl
@[simp] theorem setDlen_dv (l : BitVec 64) : (s.setDlen l).dv = s.dv := rfl
@[simp] theorem setDlen_padcnt (l : BitVec 64) : (s.setDlen l).padcnt = s.padcnt := rfl
@[simp] theorem setDlen_busy (l : BitVec 64) : (s.setDlen l).busy = s.busy := rfl
@[simp] theorem setDlen_rem (l : BitVec 64) : (s.setDlen l).rem = s.rem := rfl
@[simp] theorem setDlen_dlen (l : BitVec 64) : (s.setDlen l).dlen = l := rfl
@[simp] theorem setDlen_inputs (l : BitVec 64) : (s.setDlen l).inputs = s.inputs := rfl
@[simp] theorem setDlen_reads (l : BitVec 64) : (s.setDlen l).reads = s.reads := rfl
@[simp] theorem setDlen_owner (l : BitVec 64) : (s.setDlen l).owner = s.owner := rfl
@[simp] theorem setDlen_freeReads (l : BitVec 64) : (s.setDlen l).freeReads = s.freeReads := rfl

@[simp] theorem setInputs_hreg (is : List Input) : (s.setInputs is).hreg = s.hreg := rfl
@[simp] theorem setInputs_mem (is : List Input) : (s.setInputs is).mem = s.mem := rfl
@[simp] theorem setInputs_err (is : List Input) : (s.setInputs is).err = s.err := rfl
@[simp] theorem setInputs_drv (is : List Input) : (s.setInputs is).drv = s.drv := rfl
@[simp] theorem setInputs_dv (is : List Input) : (s.setInputs is).dv = s.dv := rfl
@[simp] theorem setInputs_padcnt (is : List Input) : (s.setInputs is).padcnt = s.padcnt := rfl
@[simp] theorem setInputs_busy (is : List Input) : (s.setInputs is).busy = s.busy := rfl
@[simp] theorem setInputs_rem (is : List Input) : (s.setInputs is).rem = s.rem := rfl
@[simp] theorem setInputs_dlen (is : List Input) : (s.setInputs is).dlen = s.dlen := rfl
@[simp] theorem setInputs_inputs (is : List Input) : (s.setInputs is).inputs = is := rfl
@[simp] theorem setInputs_reads (is : List Input) : (s.setInputs is).reads = s.reads := rfl
@[simp] theorem setInputs_owner (is : List Input) : (s.setInputs is).owner = s.owner := rfl
@[simp] theorem setInputs_freeReads (is : List Input) : (s.setInputs is).freeReads = s.freeReads := rfl

@[simp] theorem setOwner_hreg (h : Nat) : (s.setOwner h).hreg = s.hreg := rfl
@[simp] theorem setOwner_mem (h : Nat) : (s.setOwner h).mem = s.mem := rfl
@[simp] theorem setOwner_err (h : Nat) : (s.setOwner h).err = s.err := rfl
@[simp] theorem setOwner_drv (h : Nat) : (s.setOwner h).drv = s.drv := rfl
@[simp] theorem setOwner_dv (h : Nat) : (s.setOwner h).dv = s.dv := rfl
@[simp] theorem setOwner_padcnt (h : Nat) : (s.setOwner h).padcnt = s.padcnt := rfl
@[simp] theorem setOwner_busy (h : Nat) : (s.setOwner h).busy = s.busy := rfl
@[simp] theorem setOwner_rem (h : Nat) : (s.setOwner h).rem = s.rem := rfl
@[simp] theorem setOwner_dlen (h : Nat) : (s.setOwner h).dlen = s.dlen := rfl
@[simp] theorem setOwner_inputs (h : Nat) : (s.setOwner h).inputs = s.inputs := rfl
@[simp] theorem setOwner_reads (h : Nat) : (s.setOwner h).reads = s.reads := rfl
@[simp] theorem setOwner_owner (h : Nat) : (s.setOwner h).owner = some h := rfl
@[simp] theorem setOwner_freeReads (h : Nat) : (s.setOwner h).freeReads = s.freeReads := rfl

@[simp] theorem store_hreg (a : Nat) (bs : List Byte) : (s.store a bs).hreg = s.hreg := rfl
@[simp] theorem store_mem (a : Nat) (bs : List Byte) : (s.store a bs).mem = s.mem.writeBytes a bs := rfl
@[simp] theorem store_err (a : Nat) (bs : List Byte) : (s.store a bs).err = s.err := rfl
@[simp] theorem store_drv (a : Nat) (bs : List Byte) : (s.store a bs).drv = s.drv := rfl
@[simp] theorem store_dv (a : Nat) (bs : List Byte) : (s.store a bs).dv = s.dv := rfl
@[simp] theorem store_padcnt (a : Nat) (bs : List Byte) : (s.store a bs).padcnt = s.padcnt := rfl
@[simp] theorem store_busy (a : Nat) (bs : List Byte) : (s.store a bs).busy = s.busy := rfl
@[simp] theorem store_rem (a : Nat) (bs : List Byte) : (s.store a bs).rem = s.rem := rfl
@[simp] theorem store_dlen (a : Nat) (bs : List Byte) : (s.store a bs).dlen = s.dlen := rfl
@[simp] theorem store_inputs (a : Nat) (bs : List Byte) : (s.store a bs).inputs = s.inputs := rfl
@[simp] theorem store_reads (a : Nat) (bs : List Byte) : (s.store a bs).reads = s.reads := rfl
@[simp] theorem store_owner (a : Nat) (bs : List Byte) : (s.store a bs).owner = s.owner := rfl
@[simp] theorem store_freeReads (a : Nat) (bs : List Byte) : (s.store a bs).freeReads = s.freeReads := rfl

@[simp] theorem returnRead_hreg (v : Word) : (s.returnRead v).hreg = s.hreg := rfl
@[simp] theorem returnRead_mem (v : Word) : (s.returnRead v).mem = s.mem := rfl
@[simp] theorem returnRead_err (v : Word) : (s.returnRead v).err = s.err := rfl
@[simp] theorem returnRead_drv (v : Word) : (s.returnRead v).drv = s.drv := rfl
@[simp] theorem returnRead_dv (v : Word) : (s.returnRead v).dv = s.dv := rfl
@[simp] theorem returnRead_padcnt (v : Word) : (s.returnRead v).padcnt = s.padcnt := rfl
@[simp] theorem returnRead_busy (v : Word) : (s.returnRead v).busy = s.busy := rfl
@[simp] theorem returnRead_rem (v : Word) : (s.returnRead v).rem = s.rem := rfl
@[simp] theorem returnRead_dlen (v : Word) : (s.returnRead v).dlen = s.dlen := rfl
@[simp] theorem returnRead_inputs (v : Word) : (s.returnRead v).inputs = s.inputs := rfl
@[simp] theorem returnRead_reads (v : Word) : (s.returnRead v).reads = s.reads ++ [v] := rfl
@[simp] theorem returnRead_owner (v : Word) : (s.returnRead v).owner = s.owner := rfl
@[simp] theorem returnRead_freeReads (v : Word) : (s.returnRead v).freeReads = if s.busy then s.freeReads + 1 else s.freeReads := rfl

@[simp] theorem putPadding_hreg (p : List Byte) : (s.putPadding p).hreg = s.hreg := rfl
@[simp] theorem putPadding_mem (p : List Byte) : (s.putPadding p).mem = s.mem.writeBytes padBase (p ++ zeros (128 - p.length)) := rfl
@[simp] theorem putPadding_err (p : List Byte) : (s.putPadding p).err = s.err := rfl
@[simp] theorem putPadding_drv (p : List Byte) : (s.putPadding p).drv = s.drv := rfl
@[simp] theorem putPadding_dv (p : List Byte) : (s.putPadding p).dv = s.dv := rfl
@[simp] theorem putPadding_padcnt (p : List Byte) : (s.putPadding p).padcnt = .ofBlocks (p.length / 64) := rfl
@[simp] theorem putPadding_busy (p : List Byte) : (s.putPadding p).busy = s.busy := rfl
@[simp] theorem putPadding_rem (p : List Byte) : (s.putPadding p).rem = s.rem := rfl
@[simp] theorem putPadding_dlen (p : List Byte) : (s.putPadding p).dlen = s.dlen := rfl
@[simp] theorem putPadding_inputs (p : List Byte) : (s.putPadding p).inputs = s.inputs := rfl
@[simp] theorem putPadding_reads (p : List Byte) : (s.putPadding p).reads = s.reads := rfl
@[simp] theorem putPadding_owner (p : List Byte) : (s.putPadding p).owner = s.owner := rfl
@[simp] theorem putPadding_freeReads (p : List Byte) : (s.putPadding p).freeReads = s.freeReads := rfl

@[simp] theorem putDigest_hreg (h : HashState) : (s.putDigest h).hreg = s.hreg := rfl
@[simp] theorem putDigest_mem (h : HashState) : (s.putDigest h).mem = s.mem.writeBytes digBase (hex h) := rfl
@[simp] theorem putDigest_err (h : HashState) : (s.putDigest h).err = s.err := rfl
@[simp] theorem putDigest_drv (h : HashState) : (s.putDigest h).drv = s.drv := rfl
@[simp] theorem putDigest_dv (h : HashState) : (s.putDigest h).dv = true := rfl
@[simp] theorem putDigest_padcnt (h : HashState) : (s.putDigest h).padcnt = s.padcnt := rfl
@[simp] theorem putDigest_busy (h : HashState) : (s.putDigest h).busy = s.busy := rfl
@[simp] theorem putDigest_rem (h : HashState) : (s.putDigest h).rem = s.rem := rfl
@[simp] theorem putDigest_dlen (h : HashState) : (s.putDigest h).dlen = s.dlen := rfl
@[simp] theorem putDigest_inputs (h : HashState) : (s.putDigest h).inputs = s.inputs := rfl
@[simp] theorem putDigest_reads (h : HashState) : (s.putDigest h).reads = s.reads := rfl
@[simp] theorem putDigest_owner (h : HashState) : (s.putDigest h).owner = s.owner := rfl
@[simp] theorem putDigest_freeReads (h : HashState) : (s.putDigest h).freeReads = s.freeReads := rfl

@[simp] theorem raise_hreg (e : ErrCode) : (s.raise e).hreg = s.hreg := rfl
@[simp] theorem raise_mem (e : ErrCode) : (s.raise e).mem = s.mem := rfl
@[simp] theorem raise_err (e : ErrCode) : (s.raise e).err = e := rfl
@[simp] theorem raise_drv (e : ErrCode) : (s.raise e).drv = .error := rfl
@[simp] theorem raise_dv (e : ErrCode) : (s.raise e).dv = false := rfl
@[simp] theorem raise_padcnt (e : ErrCode) : (s.raise e).padcnt = s.padcnt := rfl
@[simp] theorem raise_busy (e : ErrCode) : (s.raise e).busy = s.busy := rfl
@[simp] theorem raise_rem (e : ErrCode) : (s.raise e).rem = s.rem := rfl
@[simp] theorem raise_dlen (e : ErrCode) : (s.raise e).dlen = s.dlen := rfl
@[simp] theorem raise_inputs (e : ErrCode) : (s.raise e).inputs = s.inputs := rfl
@[simp] theorem raise_reads (e : ErrCode) : (s.raise e).reads = s.reads := rfl
@[simp] theorem raise_owner (e : ErrCode) : (s.raise e).owner = s.owner := rfl
@[simp] theorem raise_freeReads (e : ErrCode) : (s.raise e).freeReads = s.freeReads := rfl

@[simp] theorem platformReset_hreg : (s.platformReset).hreg = initialHash := rfl
@[simp] theorem platformReset_mem : (s.platformReset).mem = [] := rfl
@[simp] theorem platformReset_err : (s.platformReset).err = .none := rfl
@[simp] theorem platformReset_drv : (s.platformReset).drv = .idle := rfl
@[simp] theorem platformReset_dv : (s.platformReset).dv = false := rfl
@[simp] theorem platformReset_padcnt : (s.platformReset).padcnt = .zero := rfl
@[simp] theorem platformReset_busy : (s.platformReset).busy = false := rfl
@[simp] theorem platformReset_rem : (s.platformReset).rem = 0 := rfl
@[simp] theorem platformReset_dlen : (s.platformReset).dlen = 0 := rfl
@[simp] theorem platformReset_inputs : (s.platformReset).inputs = s.inputs := rfl
@[simp] theorem platformReset_reads : (s.platformReset).reads = s.reads := rfl
@[simp] theorem platformReset_owner : (s.platformReset).owner = s.owner := rfl
@[simp] theorem platformReset_freeReads : (s.platformReset).freeReads = s.freeReads := rfl

end Sys2Proof.Machine.State
end

