-- ==== Sys2Proof/Laws/Buffers.lean ====
section
/-! SUPPORT. What the buffers hold after the shared operations, in the terms of Safety.lean, and the compression of
padded bytes block by block. -/

namespace Sys2Proof.Machine

variable {s t : State}

/-! ### Reading what is held -/

theorem fetchBytes_of_holds {a : Nat} {bs : List Byte} (h : s.holdsBytes a bs) :
    s.mem.fetchBytes a bs.length = .ok bs :=
  (Memory.fetchBytes_eq_ok_iff ..).2 ⟨rfl, h⟩

theorem holds_of_fetchBytes {a n : Nat} {bs : List Byte} (h : s.mem.fetchBytes a n = .ok bs) : s.holdsBytes a bs := by
  obtain ⟨rfl, h⟩ := (Memory.fetchBytes_eq_ok_iff ..).1 h
  exact h

theorem fetchBytes_of_lacks {a n : Nat} (h : s.lacks a n) :
    ∃ x, s.mem.fetchBytes a n = .error (.unwrittenByte x) := by
  cases hf : s.mem.fetchBytes a n with
  | error f =>
    obtain ⟨j, _, _, _, rfl⟩ := Memory.fetchBytes_error_cases hf
    exact ⟨_, rfl⟩
  | ok bs =>
    obtain ⟨j, hj, hn⟩ := h
    obtain ⟨hl, hr⟩ := (Memory.fetchBytes_eq_ok_iff ..).1 hf
    rw [hr j hj] at hn
    simp [hl] at hn
    omega

/-- Unpacking a word packed from four bytes gives the bytes back (R54). -/
theorem wordBytes_be32 (a b c d : Byte) : wordBytes (be32 [a, b, c, d] 0) = [a, b, c, d] := by
  have p : ∀ i, (be32 [a, b, c, d] 0).getLsbD i =
      if i < 8 then d.getLsbD i else if i < 16 then c.getLsbD (i - 8)
      else if i < 24 then b.getLsbD (i - 16) else a.getLsbD (i - 24) := packed_getLsbD a b c d
  have q : ∀ k (x : Byte), (∀ i, i < 8 → (be32 [a, b, c, d] 0).getLsbD (k + i) = x.getLsbD i) →
      (be32 [a, b, c, d] 0).extractLsb' k 8 = x := by
    intro k x h
    apply BitVec.eq_of_getLsbD_eq
    intro i hi
    rw [BitVec.getLsbD_extractLsb', h i hi]
    simp [hi]
  simp only [wordBytes]
  rw [q 24 a, q 16 b, q 8 c, q 0 d] <;> intro i hi <;> rw [p] <;> split_ifs <;> first | omega | (congr 1; omega)

/-- A window word of a buffer reads as `v` exactly when its four bytes are those of `v` (R54). -/
theorem fetchWord_eq_ok_iff (m : Memory) (a : Nat) (v : Word) :
    m.fetchWord a = .ok v ↔ m.fetchBytes a 4 = .ok (wordBytes v) := by
  unfold Memory.fetchWord
  cases h : m.fetchBytes a 4 with
  | error f => simp
  | ok bs =>
    match bs, ((Memory.fetchBytes_eq_ok_iff ..).1 h).1 with
    | [p, q, r, u], _ =>
      simp only [Except.ok.injEq]
      constructor
      · rintro rfl
        exact (wordBytes_be32 ..).symm
      · intro e
        rw [e, be32_wordBytes]

/-! ### Storing -/

theorem store_holds (s : State) (a : Nat) (bs : List Byte) : (s.store a bs).holdsBytes a bs :=
  holds_of_fetchBytes (Memory.fetchBytes_writeBytes s.mem a bs)

theorem store_same (s : State) {a n : Nat} {bs : List Byte} (hn : bs.length = n) :
    s.sameBytesOutside (s.store a bs) a n := by
  subst hn
  exact fun x hx => Memory.read_writeBytes_outside s.mem hx

/-- Writes at the same place keep two memories alike wherever they were alike. -/
theorem writeBytes_agree {m m' : Memory} {P : Nat → Prop} (h : ∀ x, P x → m'.read x = m.read x) (a : Nat)
    (bs : List Byte) : ∀ x, P x → (m'.writeBytes a bs).read x = (m.writeBytes a bs).read x := by
  intro x hx
  by_cases hin : a ≤ x ∧ x < a + bs.length
  · rw [Memory.read_writeBytes_inside _ hin.1 hin.2, Memory.read_writeBytes_inside _ hin.1 hin.2]
  · rw [Memory.read_writeBytes_outside _ (by omega), Memory.read_writeBytes_outside _ (by omega), h x hx]

theorem putPadding_fill_length {p : List Byte} (hp : p.length = 64 ∨ p.length = 128) :
    (p ++ zeros (128 - p.length)).length = 128 := by
  simp
  omega

/-- What `putPadding` leaves in the buffers, for one or two blocks. -/
theorem putPadding_buffers (s : State) {p : List Byte} (hp : p.length = 64 ∨ p.length = 128) :
    (s.putPadding p).holdsBytes 0x080 p ∧
      (∀ j, p.length ≤ j → j < 128 → (s.putPadding p).mem.read (0x080 + j) = some 0) ∧
      s.sameBytesOutside (s.putPadding p) 0x080 128 := by
  have hl := putPadding_fill_length hp
  have inside : ∀ j, j < 128 → (s.putPadding p).mem.read (0x080 + j) = (p ++ zeros (128 - p.length))[j]? := by
    intro j hj
    have := store_holds s padBase (p ++ zeros (128 - p.length)) j (by omega)
    exact this
  refine ⟨fun j hj => ?_, fun j h1 h2 => ?_, store_same s hl⟩
  · rw [inside j (by omega), List.getElem?_append_left hj]
  · rw [inside j h2, List.getElem?_append_right h1]
    simp [zeros, show j - p.length < 128 - p.length by omega]

/-- What `putDigest` leaves in the buffers. -/
theorem putDigest_buffers (s : State) (h : HashState) :
    (s.putDigest h).holdsDigest h ∧ s.sameBytesOutside (s.putDigest h) 0x100 64 :=
  ⟨store_holds s digBase (hex h), store_same s (hex_length h)⟩

/-! ### Blocks of padded bytes -/

/-- The one or two compressions of a padded chunk (R165, R195). -/
theorem compressBlocks_pad (h : HashState) {c : List Byte} (l : BitVec 64) (hc : c.length ≤ 64) :
    compressBlocks h (pad c l) =
      if c.length ≤ 55 then compress h (blk (pad c l) 0)
      else compress (compress h (blk (pad c l) 0)) (blk (pad c l) 1) := by
  rcases pad_length_cases hc l with ⟨h1, h2⟩ | ⟨h1, h2⟩
  · simp [compressBlocks, h2, h1, List.range_succ]
  · simp [compressBlocks, h2, show ¬ c.length ≤ 55 by omega, List.range_succ]

/-- The blocks of `x ++ y` are the `q` blocks of `x` and then those of `y`. -/
theorem compressBlocks_append (h : HashState) {x : List Byte} (y : List Byte) {q : Nat} (hx : x.length = 64 * q) :
    compressBlocks h (x ++ y) = compressBlocks ((List.range q).foldl (fun h j => compress h (blk x j)) h) y := by
  unfold compressBlocks
  have hq : (x ++ y).length / 64 = q + y.length / 64 := by rw [List.length_append, hx]; omega
  have e1 : ∀ j < q, blk (x ++ y) j = blk x j := by
    intro j hj
    simp only [blk]
    rw [List.drop_append_of_le_length (by omega), List.take_append_of_le_length (by simp; omega)]
  have e2 : ∀ j, blk (x ++ y) (q + j) = blk y j := by
    intro j
    simp only [blk]
    rw [List.drop_append, List.drop_of_length_le (by omega), hx]
    simp
    congr 2
    omega
  have f1 : (List.range q).foldl (fun h j => compress h (blk (x ++ y) j)) h =
      (List.range q).foldl (fun h j => compress h (blk x j)) h :=
    List.foldl_ext _ _ _ fun a b hb => by rw [e1 b (List.mem_range.1 hb)]
  rw [hq, List.range_add, List.foldl_append, List.foldl_map, f1]
  simp only [e2]

end Sys2Proof.Machine
end

