-- ==== Sys2Proof/Laws/Ops.lean ====
section
/-! SUPPORT. What the shared operations and the commands can do, said once: if one answers a next state, then one of
these cases holds. -/

namespace Sys2Proof.Machine

variable {s t : State}

@[simp] theorem raised_eq_next (e : ErrCode) : raised e s = .next t ↔ t = s.raise e := by
  simp [raised, eq_comm]

theorem whenErrorFree_next {k : Result} (h : whenErrorFree s k = .next t) :
    (s.err ≠ .none ∧ t = s) ∨ (s.err = .none ∧ k = .next t) := by
  unfold whenErrorFree at h
  split at h
  · exact .inr ⟨‹_›, h⟩
  · exact .inl ⟨‹_›, by simpa using h.symm⟩

theorem unlessReading_next {k : Result} (h : unlessReading s k = .next t) :
    (s.drv = .read ∧ t = s.raise .sequence) ∨ (s.drv ≠ .read ∧ k = .next t) := by
  unfold unlessReading at h
  split at h
  · exact .inl ⟨‹_›, by simpa using h⟩
  · exact .inr ⟨‹_›, h⟩

theorem unlessOverlong_next {c : Nat} {k : Result} (h : unlessOverlong c s k = .next t) :
    (64 < c ∧ t = s.raise .contract) ∨ (c ≤ 64 ∧ k = .next t) := by
  unfold unlessOverlong at h
  split at h
  · exact .inl ⟨‹_›, by simpa using h⟩
  · exact .inr ⟨by omega, h⟩

theorem withLen_next {k : BitVec 128 → Result} (h : withLen s k = .next t) :
    ∃ l, fetchLen s.mem = .ok l ∧ k l = .next t := by
  unfold withLen at h
  split at h
  · cases h
  · exact ⟨_, ‹_›, h⟩

theorem withBlk_next {c : Nat} {k : List Byte → Result} (h : withBlk s c k = .next t) :
    ∃ bs, fetchBlk s.mem c = .ok bs ∧ k bs = .next t := by
  unfold withBlk at h
  split at h
  · cases h
  · exact ⟨_, ‹_›, h⟩

theorem unlessTooLarge_next {l : BitVec 128} {k : BitVec 64 → Result} (h : unlessTooLarge l s k = .next t) :
    (2 ^ 64 ≤ l.toNat ∧ t = s.raise .inputTooLarge) ∨ (l.toNat < 2 ^ 64 ∧ k (l.setWidth 64) = .next t) := by
  unfold unlessTooLarge at h
  split at h
  · exact .inl ⟨‹_›, by simpa using h⟩
  · exact .inr ⟨by omega, h⟩

theorem fetchBlk_length {m : Memory} {c : Nat} {bs : List Byte} (h : fetchBlk m c = .ok bs) : bs.length = c :=
  ((Memory.fetchBytes_eq_ok_iff ..).1 h).1

/-- The outcomes every command but INIT shares: ignored in the error state, or an architected error. -/
def Declined (s t : State) : Prop := (s.err ≠ .none ∧ t = s) ∨ (s.err = .none ∧ ∃ e, e ≠ .none ∧ t = s.raise e)

theorem execCompress_next (h : execCompress s = .next t) :
    Declined s t ∨ (s.err = .none ∧ s.drv ≠ .read ∧ ∃ b, fetchBlk s.mem 64 = .ok b ∧
      t = ((s.setHash (compress s.hreg b)).setDv false).setDrv .idle) := by
  obtain h | ⟨he, h⟩ := whenErrorFree_next h
  · exact .inl (.inl h)
  obtain ⟨_, rfl⟩ | ⟨hd, h⟩ := unlessReading_next h
  · exact .inl (.inr ⟨he, _, by decide, rfl⟩)
  obtain ⟨b, hb, h⟩ := withBlk_next h
  exact .inr ⟨he, hd, b, hb, by simpa using h.symm⟩

theorem execPad_next {c : Nat} (h : execPad c s = .next t) :
    Declined s t ∨ (s.err = .none ∧ s.drv ≠ .read ∧ c ≤ 64 ∧ ∃ l chunk, fetchLen s.mem = .ok l ∧ l.toNat < 2 ^ 64 ∧
      fetchBlk s.mem c = .ok chunk ∧ t = s.putPadding (pad chunk (l.setWidth 64))) := by
  obtain h | ⟨he, h⟩ := whenErrorFree_next h
  · exact .inl (.inl h)
  obtain ⟨_, rfl⟩ | ⟨hd, h⟩ := unlessReading_next h
  · exact .inl (.inr ⟨he, _, by decide, rfl⟩)
  obtain ⟨_, rfl⟩ | ⟨hc, h⟩ := unlessOverlong_next h
  · exact .inl (.inr ⟨he, _, by decide, rfl⟩)
  obtain ⟨l, hl, h⟩ := withLen_next h
  obtain ⟨_, rfl⟩ | ⟨hl', h⟩ := unlessTooLarge_next h
  · exact .inl (.inr ⟨he, _, by decide, rfl⟩)
  obtain ⟨b, hb, h⟩ := withBlk_next h
  exact .inr ⟨he, hd, hc, l, b, hl, hl', hb, by simpa using h.symm⟩

theorem execFinal_next {c : Nat} (h : execFinal c s = .next t) :
    Declined s t ∨ (s.err = .none ∧ s.drv ≠ .read ∧ c ≤ 64 ∧ ∃ l chunk, fetchLen s.mem = .ok l ∧ l.toNat < 2 ^ 64 ∧
      fetchBlk s.mem c = .ok chunk ∧
      t = (((s.setHash (compressBlocks s.hreg (pad chunk (l.setWidth 64)))).putPadding
        (pad chunk (l.setWidth 64))).setDv false).setDrv .idle) := by
  obtain h | ⟨he, h⟩ := whenErrorFree_next h
  · exact .inl (.inl h)
  obtain ⟨_, rfl⟩ | ⟨hd, h⟩ := unlessReading_next h
  · exact .inl (.inr ⟨he, _, by decide, rfl⟩)
  obtain ⟨_, rfl⟩ | ⟨hc, h⟩ := unlessOverlong_next h
  · exact .inl (.inr ⟨he, _, by decide, rfl⟩)
  obtain ⟨l, hl, h⟩ := withLen_next h
  obtain ⟨_, rfl⟩ | ⟨hl', h⟩ := unlessTooLarge_next h
  · exact .inl (.inr ⟨he, _, by decide, rfl⟩)
  obtain ⟨b, hb, h⟩ := withBlk_next h
  exact .inr ⟨he, hd, hc, l, b, hl, hl', hb, by simpa using h.symm⟩

theorem execFormat_next (h : execFormat s = .next t) :
    Declined s t ∨ (s.err = .none ∧ s.drv ≠ .read ∧ t = s.putDigest s.hreg) := by
  obtain h | ⟨he, h⟩ := whenErrorFree_next h
  · exact .inl (.inl h)
  obtain ⟨_, rfl⟩ | ⟨hd, h⟩ := unlessReading_next h
  · exact .inl (.inr ⟨he, _, by decide, rfl⟩)
  exact .inr ⟨he, hd, by simpa using h.symm⟩

theorem execStart_next (h : execStart s = .next t) :
    Declined s t ∨ (s.err = .none ∧ s.drv ≠ .read ∧ ∃ l : BitVec 128, fetchLen s.mem = .ok l ∧ l.toNat < 2 ^ 64 ∧
      (l.setWidth 64).toNat % 8 = 0 ∧
      t = ((((s.setHash initialHash).setDlen (l.setWidth 64)).setRem (l.setWidth 64 >>> 3)).setDv false).setDrv
        .read) := by
  obtain h | ⟨he, h⟩ := whenErrorFree_next h
  · exact .inl (.inl h)
  obtain ⟨_, rfl⟩ | ⟨hd, h⟩ := unlessReading_next h
  · exact .inl (.inr ⟨he, _, by decide, rfl⟩)
  obtain ⟨l, hl, h⟩ := withLen_next h
  obtain ⟨_, rfl⟩ | ⟨hl', h⟩ := unlessTooLarge_next h
  · exact .inl (.inr ⟨he, _, by decide, rfl⟩)
  split at h
  · exact .inl (.inr ⟨he, .contract, by decide, by simpa using h⟩)
  · exact .inr ⟨he, hd, l, hl, hl', by omega, by simpa using h.symm⟩

theorem execChunk_next {c : Nat} (h : execChunk c s = .next t) :
    Declined s t ∨ (s.err = .none ∧ s.drv = .read ∧ c = bytesDue s ∧
      ((64 < s.rem.toNat ∧ ∃ b, fetchBlk s.mem 64 = .ok b ∧
          t = (s.setHash (compress s.hreg b)).setRem (s.rem - 64)) ∨
        (s.rem.toNat ≤ 64 ∧ ∃ chunk, fetchBlk s.mem c = .ok chunk ∧
          t = ((((s.setHash (compressBlocks s.hreg (pad chunk s.dlen))).putPadding (pad chunk s.dlen)).setRem
            0).putDigest (compressBlocks s.hreg (pad chunk s.dlen))).setDrv .done))) := by
  obtain h | ⟨he, h⟩ := whenErrorFree_next h
  · exact .inl (.inl h)
  split at h
  · exact .inl (.inr ⟨he, .sequence, by decide, by simpa using h⟩)
  split at h
  · exact .inl (.inr ⟨he, .ioError, by decide, by simpa using h⟩)
  split at h
  · exact .inl (.inr ⟨he, .contract, by decide, by simpa using h⟩)
  refine .inr ⟨he, by simpa using ‹¬ s.drv ≠ .read›, by omega, ?_⟩
  split at h
  · obtain ⟨b, hb, h⟩ := withBlk_next h
    exact .inl ⟨‹_›, b, hb, by simpa using h.symm⟩
  · obtain ⟨b, hb, h⟩ := withBlk_next h
    exact .inr ⟨by omega, b, hb, by simpa using h.symm⟩

theorem writeHreg_next {i : Fin 8} {v : Word} (h : writeHreg i v s = .next t) :
    (s.drv = .read ∧ t = s.raise .sequence) ∨
      (s.drv ≠ .read ∧ t = (s.setHash (s.hreg.set i v)).setDv false) := by
  obtain h | ⟨hd, h⟩ := unlessReading_next h
  · exact .inl h
  · exact .inr ⟨hd, by simpa using h.symm⟩

theorem issue_next {v : Word} (h : issue v s = .next t) :
    (∃ i, decode v = .ok i ∧ exec i s = .next t) ∨ ((∃ e, decode v = .error e) ∧ Declined s t) := by
  unfold issue at h
  split at h
  · exact .inl ⟨_, ‹_›, h⟩
  · obtain h | ⟨he, h⟩ := whenErrorFree_next h
    · exact .inr ⟨⟨_, ‹_›⟩, .inl h⟩
    · exact .inr ⟨⟨_, ‹_›⟩, .inr ⟨he, .illegalCmd, by decide, by simpa using h⟩⟩

/-- A served access names a register of the window, from the driving host, 32 bits wide and aligned. -/
theorem hostAccess_next {a : Access} (h : hostAccess a s = .next t) :
    foreignHost a s = false ∧ (s.busy = true → a.isStatusRead = true) ∧ a.width = 4 ∧ a.offset % 4 = 0 ∧
      a.offset < windowSize ∧ ∃ r, windowReg a.offset = some r ∧ accessReg r a.kind (s.setOwner a.host) = .next t := by
  unfold hostAccess at h
  split at h
  · cases h
  split at h
  · cases h
  split at h
  · cases h
  split at h
  · cases h
  split at h
  · cases h
  split at h
  · cases h
  · rename_i h1 h2 _ h4 h5 _ r hr
    refine ⟨by simpa using h1, ?_, by omega, by omega, by omega, r, hr, h⟩
    intro hb
    simpa [hb] using h2

theorem step_next (h : step s = .next t) :
    (s.inputs = [] ∧ t = s) ∨ (∃ a rest, s.inputs = .access a :: rest ∧ hostAccess a (s.setInputs rest) = .next t) ∨
      (∃ rest, s.inputs = .reset :: rest ∧ t = (s.setInputs rest).platformReset) := by
  unfold step at h
  split at h
  · exact .inl ⟨‹_›, by simpa using h.symm⟩
  · rename_i i rest hi
    cases i with
    | access a => exact .inr (.inl ⟨a, rest, hi, h⟩)
    | reset => exact .inr (.inr ⟨rest, hi, by simpa [serve] using h.symm⟩)

end Sys2Proof.Machine
end

