-- ==== Sys2Proof/Laws/PerInstr.lean ====
section
/-! SUPPORT. Statements about every instruction as syntax, one lemma per constructor. -/

namespace Sys2Proof.Laws.EncodedFields

/-- The fields of a well-formed command's word: its opcode, its operand, and RSVD = 0 (R81, R83). -/
def Statement (i : Instr) : Prop :=
  i.wellFormed = true →
    opField (encode i) = i.opcode ∧ clenField (encode i) = BitVec.ofNat 7 i.clen ∧ rsvdField (encode i) = 0

/-- Bit `i` of a word put together from its fields. -/
theorem append_getLsbD (c : BitVec 7) (o : BitVec 4) (i : Nat) :
    BitVec.getLsbD (w := 21 + 7 + 4) ((0 : BitVec 21) ++ c ++ o) i =
      if i < 4 then o.getLsbD i else if i < 11 then c.getLsbD (i - 4) else false := by
  simp only [BitVec.getLsbD_append]
  by_cases h1 : i < 4
  · simp [h1]
  by_cases h2 : i < 11
  · simp [h1, h2, show i - 4 < 7 by omega]
  · simp [h1, h2, show ¬ i - 4 < 7 by omega]

/-- The fields of a word put together from fields are those fields. -/
theorem fields_append (c : BitVec 7) (o : BitVec 4) :
    opField ((0 : BitVec 21) ++ c ++ o) = o ∧ clenField ((0 : BitVec 21) ++ c ++ o) = c ∧
      rsvdField ((0 : BitVec 21) ++ c ++ o) = 0 := by
  refine ⟨?_, ?_, ?_⟩ <;> apply BitVec.eq_of_getLsbD_eq <;> intro i hi
  · simp only [opField, BitVec.getLsbD_extractLsb', hi, decide_true, Bool.true_and]
    refine (append_getLsbD c o _).trans ?_
    simp [hi]
  · simp only [clenField, BitVec.getLsbD_extractLsb', hi, decide_true, Bool.true_and]
    refine (append_getLsbD c o _).trans ?_
    simp [show ¬ 4 + i < 4 by omega, show 4 + i < 11 by omega]
  · simp only [rsvdField, BitVec.getLsbD_extractLsb', hi, decide_true, Bool.true_and]
    refine (append_getLsbD c o _).trans ?_
    simp [show ¬ 11 + i < 4 by omega, show ¬ 11 + i < 11 by omega]

theorem init : Statement .init := fun _ => fields_append _ _
theorem compress : Statement .compress := fun _ => fields_append _ _
theorem pad (c : Nat) : Statement (.pad c) := fun _ => fields_append _ _
theorem final (c : Nat) : Statement (.final c) := fun _ => fields_append _ _
theorem format : Statement .format := fun _ => fields_append _ _
theorem start : Statement .start := fun _ => fields_append _ _
theorem chunk (c : Nat) : Statement (.chunk c) := fun _ => fields_append _ _

end Sys2Proof.Laws.EncodedFields
end

