-- ==== Sys2Proof/Laws/Platform.lean ====
section
/-! SUPPORT. No access of an instance is refused, and what an instance of a platform and the platform's delivery can
do. -/

namespace Sys2Proof.Machine

variable {s : State}

/-! ### Nothing an instance does is refused -/

theorem next_not_refused {t : State} (r : Refusal) : (.next t : Result) ≠ .refused r := nofun

theorem whenErrorFree_not_refused {k : Result} (h : ∀ r, k ≠ .refused r) (r : Refusal) :
    whenErrorFree s k ≠ .refused r := by
  unfold whenErrorFree
  split
  · exact h r
  · exact nofun

theorem unlessReading_not_refused {k : Result} (h : ∀ r, k ≠ .refused r) (r : Refusal) :
    unlessReading s k ≠ .refused r := by
  unfold unlessReading
  split
  · exact nofun
  · exact h r

theorem unlessOverlong_not_refused {c : Nat} {k : Result} (h : ∀ r, k ≠ .refused r) (r : Refusal) :
    unlessOverlong c s k ≠ .refused r := by
  unfold unlessOverlong
  split
  · exact nofun
  · exact h r

theorem unlessTooLarge_not_refused {l : BitVec 128} {k : BitVec 64 → Result} (h : ∀ x r, k x ≠ .refused r)
    (r : Refusal) : unlessTooLarge l s k ≠ .refused r := by
  unfold unlessTooLarge
  split
  · exact nofun
  · exact h _ r

theorem withLen_not_refused {k : BitVec 128 → Result} (h : ∀ x r, k x ≠ .refused r) (r : Refusal) :
    withLen s k ≠ .refused r := by
  unfold withLen
  split
  · exact nofun
  · exact h _ r

theorem withBlk_not_refused {c : Nat} {k : List Byte → Result} (h : ∀ x r, k x ≠ .refused r) (r : Refusal) :
    withBlk s c k ≠ .refused r := by
  unfold withBlk
  split
  · exact nofun
  · exact h _ r

theorem exec_not_refused (i : Instr) (s : State) (r : Refusal) : exec i s ≠ .refused r := by
  cases i with
  | init => exact nofun
  | compress => exact whenErrorFree_not_refused (unlessReading_not_refused (withBlk_not_refused fun _ => next_not_refused)) r
  | pad c =>
    exact whenErrorFree_not_refused (unlessReading_not_refused (unlessOverlong_not_refused
      (withLen_not_refused fun _ => unlessTooLarge_not_refused fun _ => withBlk_not_refused fun _ => next_not_refused))) r
  | final c =>
    exact whenErrorFree_not_refused (unlessReading_not_refused (unlessOverlong_not_refused
      (withLen_not_refused fun _ => unlessTooLarge_not_refused fun _ => withBlk_not_refused fun _ => next_not_refused))) r
  | format => exact whenErrorFree_not_refused (unlessReading_not_refused next_not_refused) r
  | start =>
    refine whenErrorFree_not_refused (unlessReading_not_refused (withLen_not_refused fun _ =>
      unlessTooLarge_not_refused fun x r => ?_)) r
    split <;> exact nofun
  | chunk c =>
    refine whenErrorFree_not_refused (fun r => ?_) r
    split
    · exact nofun
    split
    · exact nofun
    split
    · exact nofun
    split
    · exact withBlk_not_refused (fun _ => next_not_refused) r
    · exact withBlk_not_refused (fun _ => next_not_refused) r

theorem accessReg_not_refused (w : WindowReg) (k : AccessKind) (s : State) (r : Refusal) :
    accessReg w k s ≠ .refused r := by
  cases k with
  | read =>
    unfold accessReg
    dsimp only
    split <;> exact nofun
  | write v =>
    cases w with
    | cmd =>
      show issue v s ≠ _
      unfold issue
      split
      · exact exec_not_refused _ _ r
      · exact whenErrorFree_not_refused next_not_refused r
    | hreg i => exact unlessReading_not_refused next_not_refused r
    | status => exact nofun
    | len i => exact nofun
    | blkw i => exact nofun
    | padw i => exact nofun
    | digw i => exact nofun
    | rem0 => exact nofun
    | rem1 => exact nofun

theorem hostAccess_not_refused (a : Access) (s : State) (r : Refusal) : hostAccess a s ≠ .refused r := by
  unfold hostAccess
  split
  · exact nofun
  split
  · exact nofun
  split
  · exact nofun
  split
  · exact nofun
  split
  · exact nofun
  split
  · exact nofun
  · exact accessReg_not_refused _ _ _ r

/-! ### One instance of a platform -/

/-- An input always leaves an instance, at the same base. -/
theorem Slot.serve_completes (i : Input) (sl : Slot) : ∃ sl', sl.serve i = .next sl' ∧ sl'.base = sl.base := by
  cases i with
  | reset => exact ⟨_, rfl, rfl⟩
  | access a =>
    unfold Slot.serve
    cases hf : sl.fault with
    | some f => exact ⟨sl, rfl, rfl⟩
    | none =>
      cases h : hostAccess a sl.core with
      | next t => exact ⟨{ sl with core := t }, by simp [Slot.record, h], rfl⟩
      | fault f => exact ⟨{ sl with fault := some f }, by simp [Slot.record, h], rfl⟩
      | refused r => exact absurd h (hostAccess_not_refused a _ r)

/-! ### Delivery -/

theorem Platform.serve_hit {e : BusEvent} {sl sl' : Slot} {rest : Platform} (h : e.selects sl.base = true)
    (hs : sl.serve (e.atBase sl.base) = .next sl') : Platform.serve e (sl :: rest) = .next (sl' :: rest) := by
  simp [Platform.serve, h, hs]

theorem Platform.serve_miss {e : BusEvent} {sl : Slot} {rest rest' : Platform} (h : e.selects sl.base = false)
    (hs : Platform.serve e rest = .next rest') : Platform.serve e (sl :: rest) = .next (sl :: rest') := by
  simp [Platform.serve, h, hs]

/-- Aligned windows at different bases share no address. -/
theorem BusEvent.selects_unique {e : BusEvent} {b b' : Nat} (hb : b % windowSize = 0) (hb' : b' % windowSize = 0)
    (h : e.selects b = true) (h' : e.selects b' = true) : b = b' := by
  cases e with
  | access a =>
    have h := of_decide_eq_true h
    have h' := of_decide_eq_true h'
    simp only [inWindow, windowSize] at *
    omega
  | reset x =>
    simp only [BusEvent.selects, beq_iff_eq] at h h'
    exact h.symm.trans h'

/-- On a platform of aligned, distinct windows an event for one instance is for no other. -/
theorem Platform.selects_only {e : BusEvent} {p : Platform} (hp : ∀ sl ∈ p, sl.base % windowSize = 0)
    (hd : p.Pairwise fun x y => x.base ≠ y.base) {k : Nat} {sl : Slot} (h : p[k]? = some sl)
    (hs : e.selects sl.base = true) (j : Nat) (sl' : Slot) (hj : j ≠ k) (h' : p[j]? = some sl') :
    e.selects sl'.base = false := by
  by_contra hc
  have hb := BusEvent.selects_unique (hp _ (List.mem_of_getElem? h)) (hp _ (List.mem_of_getElem? h')) hs
    (Bool.not_eq_false _ ▸ hc)
  obtain ⟨hk, rfl⟩ := List.getElem?_eq_some_iff.1 h
  obtain ⟨hj', rfl⟩ := List.getElem?_eq_some_iff.1 h'
  have hd := List.pairwise_iff_getElem.1 hd
  rcases Nat.lt_or_gt_of_ne hj with hlt | hlt
  · exact hd j k hj' hk hlt hb.symm
  · exact hd k j hk hj' hlt hb

/-- All that delivery does with an event for one of the instances: that instance serves it, at its place. -/
theorem Platform.serve_at {e : BusEvent} {p : Platform} (hp : ∀ sl ∈ p, sl.base % windowSize = 0)
    (hd : p.Pairwise fun x y => x.base ≠ y.base) {k : Nat} {sl : Slot} (h : p[k]? = some sl)
    (hs : e.selects sl.base = true) :
    ∃ sl', sl.serve (e.atBase sl.base) = .next sl' ∧ sl'.base = sl.base ∧ Platform.serve e p = .next (p.set k sl') := by
  induction p generalizing k with
  | nil => simp at h
  | cons s₀ rest ih =>
    cases k with
    | zero =>
      obtain rfl : s₀ = sl := by simpa using h
      obtain ⟨sl', h₁, h₂⟩ := Slot.serve_completes (e.atBase s₀.base) s₀
      exact ⟨sl', h₁, h₂, serve_hit hs h₁⟩
    | succ k =>
      obtain ⟨sl', h₁, h₂, h₃⟩ := ih (fun x hx => hp x (List.mem_cons_of_mem _ hx)) (List.pairwise_cons.1 hd).2
        (k := k) (by simpa using h)
      exact ⟨sl', h₁, h₂, serve_miss (selects_only hp hd h hs 0 s₀ (by omega) rfl) h₃⟩

/-- A delivery that completes was for one of the instances. -/
theorem Platform.serve_next {e : BusEvent} {p p' : Platform} (h : Platform.serve e p = .next p') :
    ∃ (k : Nat) (sl : Slot), p[k]? = some sl ∧ e.selects sl.base = true := by
  induction p generalizing p' with
  | nil => cases h
  | cons s₀ rest ih =>
    by_cases hs : e.selects s₀.base = true
    · exact ⟨0, s₀, rfl, hs⟩
    · simp only [Platform.serve, hs] at h
      cases h' : Platform.serve e rest with
      | next r =>
        obtain ⟨k, sl, h₁, h₂⟩ := ih h'
        exact ⟨k + 1, sl, by simpa using h₁, h₂⟩
      | fault f => simp [h'] at h
      | refused f => simp [h'] at h

end Sys2Proof.Machine
end

