-- ==== Sys2Proof/Tests/Slice0.lean ====
section
/-! SUPPORT. Tests and witnesses. Expected values are those of 95_test_vectors.md (the vector is named in each test) or
are written out from the encodings of R81 and R83; none is the model's own answer. -/

namespace Sys2Proof.Machine.Tests

/-! A test's kernel evaluation may be long; checks that wait for one another would each hold a thread. -/
set_option Elab.async false

/-! ### Small states -/

/-- The bytes of LEN at window offset 0x010 on, LEN0 first. -/
def lenBytes (l : BitVec 128) : List Byte := (List.range 4).flatMap fun k => wordBytes (l.extractLsb' (32 * k) 32)

/-- After reset, the host has written LEN and the bytes `b` from BLK[0] on. -/
def loaded (l : BitVec 128) (b : List Byte) : State := (State.reset.store lenBase (lenBytes l)).store blkBase b

/-- `s` in READ with `r` of its `n` bytes due. -/
def reading (n r : Nat) (s : State) : State :=
  { s with drv := .read, rem := BitVec.ofNat 64 r, dlen := BitVec.ofNat 64 (8 * n) }

/-- `n` bytes of 0x61. -/
def as61 (n : Nat) : List Byte := List.replicate n 0x61

def afterError : State := State.reset.raise .illegalCmd

/-- The answer of a meaning, seen through `f` of its next state; `none` for a stop. -/
def after {α : Type} (r : Result) (f : State → α) : Option α :=
  match r with
  | .next t => some (f t)
  | .fault _ => none
  | .refused _ => none

/-- The fault of an answer. -/
def faultOf : Result → Option Fault
  | .next _ => none
  | .fault f => some f
  | .refused _ => none

/-- A word a host would read from the register. -/
def word (r : WindowReg) (t : State) : Option Word := (readReg r t).toOption

/-! ### WellFormed smoke: operands the encoding cannot express are refused (R82) -/

theorem test_wf_refuses_pad_128 : Instr.wellFormed (.pad 128) = false := by decide
theorem test_wf_refuses_final_128 : Instr.wellFormed (.final 128) = false := by decide
theorem test_wf_refuses_chunk_128 : Instr.wellFormed (.chunk 128) = false := by decide
theorem test_wf_admits_127 : Instr.wellFormed (.chunk 127) = true := by decide

/-! ### Decoding: words written out as RSVD, CLEN, OP (R81, R83) -/

theorem test_decode_init : decode 0b000000000000000000000_0000000_0001 = .ok .init := by decide
theorem test_decode_compress : decode 0b000000000000000000000_0000000_0010 = .ok .compress := by decide
theorem test_decode_pad_56 : decode 0b000000000000000000000_0111000_0011 = .ok (.pad 56) := by decide
theorem test_decode_final_1 : decode 0b000000000000000000000_0000001_0100 = .ok (.final 1) := by decide
theorem test_decode_format : decode 0b000000000000000000000_0000000_0101 = .ok .format := by decide
theorem test_decode_start : decode 0b000000000000000000000_0000000_0110 = .ok .start := by decide
theorem test_decode_chunk_64 : decode 0b000000000000000000000_1000000_0111 = .ok (.chunk 64) := by decide
theorem test_decode_chunk_127 : decode 0b000000000000000000000_1111111_0111 = .ok (.chunk 127) := by decide

/-- The three kinds of illegal words (R85; V-E14 to V-E16, V-E18). -/
theorem test_decode_illegal :
    decode 0 = .error (.reservedOpcode 0) ∧ decode 0x8 = .error (.reservedOpcode 8) ∧
      decode 0xF = .error (.reservedOpcode 15) ∧ decode 0x801 = .error (.reservedBits 1) ∧
      decode 0x11 = .error (.operandNotZero 1 1) := by decide

/-- The host numbers a table word as it stands; a command is one 32-bit word (R86). -/
theorem test_decodeTableWord :
    decodeTableWord 32 0x407 = some (.chunk 64) ∧ decodeTableWord 32 0 = none ∧
      decodeTableWord 64 0x100000001 = none := by decide

/-! ### Primitives, schedule, padding, formatting -/

/-- V-PR1, the row of 12345678. -/
theorem test_sigma :
    rotr 0x12345678 25 = 0x1a2b3c09 ∧ bsig0 0x12345678 = 0x66146474 ∧ bsig1 0x12345678 = 0x3561abda ∧
      ssig0 0x12345678 = 0xe7fce6ee ∧ ssig1 0x12345678 = 0xa1f78649 := by decide

/-- V-PR2, the last row. -/
theorem test_choose_majority :
    ch 0x6a09e667 0xbb67ae85 0x3c6ef372 = 0x3e67b715 ∧ maj 0x6a09e667 0xbb67ae85 0x3c6ef372 = 0x3a6fe667 := by decide

/-- V-S4: bytes 00, 01, ... 3f. -/
theorem test_schedule :
    (schedule ((List.range 64).map (BitVec.ofNat 8))).getD 16 0 = 0x2d84894c ∧
      (schedule ((List.range 64).map (BitVec.ofNat 8))).getD 63 0 = 0x24a97715 := by decide +kernel

/-- V-C6: every addition wraps. -/
theorem test_compress_wraps :
    compress (Vector.replicate 8 0xffffffff) (List.replicate 64 0xff) = #v[0x0598127a, 0xaf11706e, 0x77401fff,
      0xd730c549, 0x0b84c867, 0xa98c6ca3, 0xd7f3c0f9, 0x06a78b79] := by decide +kernel

/-- V-F2, as the window words of its first, third, fifth and sixth words. -/
theorem test_hex :
    be32 (hexWord 0) 0 = 0x30303030 ∧ be32 (hexWord 0xf) 4 = 0x30303066 ∧ be32 (hexWord 0x00abcdef) 0 = 0x30306162 ∧
      be32 (hexWord 0x0a0b0c0d) 4 = 0x30633064 := by decide

/-! ### The commands -/

/-- V-I1, from the error state. -/
theorem test_init_clears_error :
    after (exec .init { afterError with hreg := Vector.replicate 8 5 }) (fun t => (word .status t, t.hreg)) =
      some (some 0, #v[0x6a09e667, 0xbb67ae85, 0x3c6ef372, 0xa54ff53a, 0x510e527f, 0x9b05688c, 0x1f83d9ab,
        0x5be0cd19]) := by decide +kernel

/-- V-CM1. -/
theorem test_compress_zeros :
    after (exec .compress (loaded 0 (zeros 64))) (fun t => (word .status t, t.hreg)) =
      some (some 0, #v[0xda5698be, 0x17b9b469, 0x62335799, 0x779fbeca, 0x8ce5d491, 0xc0d26243, 0xbafef9ea,
        0x1837a9d8]) := by decide +kernel

/-- V-CM2: right after reset BLK is unwritten (R38). -/
theorem test_compress_unwritten : faultOf (exec .compress State.reset) = some (.unwrittenByte 0x040) := by decide

/-- V-P11, with DV = 0 left as it is. -/
theorem test_pad_abc :
    after (exec (.pad 3) (loaded 24 [0x61, 0x62, 0x63, 0x00]))
      (fun t => (word .status t, word (.padw 0) t, word (.padw 1) t, word (.padw 15) t)) =
      some (some 0x100, some 0x61626380, some 0, some 0x18) := by decide +kernel

/-- V-P8: 64 bytes take no marker in block 0. -/
theorem test_pad_64 :
    after (exec (.pad 64) (loaded 512 (as61 64)))
      (fun t => (word .status t, word (.padw 15) t, word (.padw 16) t, word (.padw 31) t)) =
      some (some 0x200, some 0x61616161, some 0x80000000, some 0x200) := by decide +kernel

/-- V-FN1. -/
theorem test_final_empty :
    after (exec (.final 0) (loaded 0 [])) (fun t => (word .status t, word (.padw 0) t, t.hreg)) =
      some (some 0x100, some 0x80000000, #v[0xe3b0c442, 0x98fc1c14, 0x9afbf4c8, 0x996fb924, 0x27ae41e4, 0x649b934c,
        0xa495991b, 0x7852b855]) := by decide +kernel

/-- V-FN2, before its FORMAT: two blocks, PADCNT = 2. -/
theorem test_final_56 :
    after (exec (.final 56) (loaded 448 (as61 56))) (fun t => (word .status t, t.hreg)) =
      some (some 0x200, #v[0xb35439a4, 0xac6f0948, 0xb6d6f9e3, 0xc6af0f5f, 0x590ce20f, 0x1bde7090, 0xef797068,
        0x6ec6738a]) := by decide +kernel

/-- V-F1. -/
theorem test_format :
    after (exec .format State.reset)
      (fun t => (word .status t, word (.digw 0) t, word (.digw 1) t, word (.digw 15) t)) =
      some (some 0x40, some 0x36613039, some 0x65363637, some 0x63643139) := by decide +kernel

/-- V-F3. -/
theorem test_format_in_read :
    after (exec .format (reading 3 3 State.reset)) (fun t => (word .status t, t.mem)) = some (some 0x34, []) := by
  decide +kernel

/-- V-D14. -/
theorem test_start :
    after (exec .start (loaded 24 [])) (fun t => (word .status t, word .rem0 t, word .rem1 t, t.hreg, t.dlen)) =
      some (some 0x10, some 3, some 0, initialHash, 24) := by decide +kernel

/-- V-E4 and V-E3: INPUT_TOO_LARGE before CONTRACT. -/
theorem test_start_lengths :
    after (exec .start (loaded 0x10000000000000001 [])) (word .status) = some (some 0x31) ∧
      after (exec .start (loaded 0xffffffffffffffff [])) (word .status) = some (some 0x33) := by decide +kernel

/-- Program P1, its last chunk. -/
theorem test_chunk_abc :
    after (exec (.chunk 3) (reading 3 3 (loaded 24 [0x61, 0x62, 0x63, 0x00])))
      (fun t => (word .status t, word .rem0 t, word (.padw 0) t, word (.digw 0) t, word (.digw 15) t, t.hreg[7])) =
      some (some 0x160, some 0, some 0x61626380, some 0x62613738, some 0x31356164, 0xf20015ad) := by decide +kernel

/-- Program P4, its direct chunk: BLK = 00 .. 3f, 65 bytes due. -/
theorem test_chunk_direct :
    after (exec (.chunk 64) (reading 65 65 (loaded 520 ((List.range 64).map (BitVec.ofNat 8)))))
      (fun t => (word .status t, word .rem0 t, t.hreg)) =
      some (some 0x10, some 1, #v[0xfc99a2df, 0x88f42a7a, 0x7bb9d180, 0x33cdc6a2, 0x0256755f, 0x9d5b9a50, 0x44a9cc31,
        0x5abe84a7]) := by decide +kernel

/-! ### Errors and the window -/

/-- V-E6 (IO_ERROR), V-E8 (CONTRACT), V-E10 (CONTRACT before INPUT_TOO_LARGE), V-E11 (SEQUENCE). -/
theorem test_errors :
    after (exec (.chunk 2) (reading 3 3 (loaded 24 [0x61, 0x62]))) (word .status) = some (some 0x32) ∧
      after (exec (.chunk 4) (reading 3 3 (loaded 24 [0x61, 0x62, 0x63, 0x00]))) (word .status) = some (some 0x33) ∧
      after (exec (.pad 65) (loaded 0x10000000000000000 [])) (word .status) = some (some 0x33) ∧
      after (exec (.chunk 0) State.reset) (word .status) = some (some 0x34) := by decide +kernel

/-- V-E17 (ILLEGAL_CMD before SEQUENCE) and V-E19 (ignored while ERR is not 0). -/
theorem test_illegal_words :
    after (issue 0 (reading 0 0 State.reset)) (word .status) = some (some 0x35) ∧
      after (issue 0x11 (State.reset.raise .inputTooLarge)) (word .status) = some (some 0x31) := by decide +kernel

/-- V-M1: BLKW0 = 61626380. -/
theorem test_big_endian :
    after (hostAccess ⟨0, 4, 0x040, .write 0x61626380⟩ State.reset)
      (fun t => (t.mem, word (.blkw 0) t)) =
      some ([(0x40, 0x61), (0x41, 0x62), (0x42, 0x63), (0x43, 0x80)], some 0x61626380) := by decide +kernel

/-- V-M3 and V-M4. -/
theorem test_model_faults :
    faultOf (hostAccess ⟨0, 4, 0x008, .read⟩ State.reset) = some (.reservedOffset 0x008) ∧
      faultOf (hostAccess ⟨0, 4, 0x004, .write 0⟩ State.reset) = some (.readOnlyWrite 0x004) ∧
      faultOf (hostAccess ⟨0, 4, 0x100, .write 0⟩ State.reset) = some (.readOnlyWrite 0x100) ∧
      faultOf (hostAccess ⟨0, 2, 0x004, .read⟩ State.reset) = some (.wrongWidth 2) ∧
      faultOf (hostAccess ⟨0, 4, 0x002, .read⟩ State.reset) = some (.misaligned 0x002) ∧
      faultOf (hostAccess ⟨0, 4, 0x040, .read⟩ State.reset) = some (.unwrittenByte 0x040) ∧
      faultOf (hostAccess ⟨0, 4, 0x010, .read⟩ State.reset) = some (.unwrittenByte 0x010) ∧
      faultOf (hostAccess ⟨0, 4, 0x080, .read⟩ State.reset) = some (.unwrittenByte 0x080) ∧
      faultOf (hostAccess ⟨0, 4, 0x100, .read⟩ State.reset) = some (.unwrittenByte 0x100) ∧
      after (hostAccess ⟨0, 4, 0x000, .read⟩ State.reset) State.reads = some [0] := by decide +kernel

/-- A fetched word is the next thing the block serves. -/
theorem test_withFetchWord :
    after (step (State.reset.withFetchWord 32 0x5)) (fun t => (t.dv, t.inputs)) = some (true, []) := by decide +kernel

theorem test_reset_memory_canonical : State.reset.mem.wf ∧ State.reset.mem.inBuffers := by decide

/-! ### Witnesses: states and operands that meet the hypotheses of each obligation, clause by clause -/

theorem loaded_holdsBlk (l : BitVec 128) (b : List Byte) : (loaded l b).holdsBytes 0x040 b := store_holds _ blkBase b

theorem holdsLen_zero : (loaded 0 []).holdsLen 0 := by unfold State.holdsLen State.holdsBytes; decide +kernel
theorem holdsLen_one : (loaded 1 []).holdsLen 1 := by unfold State.holdsLen State.holdsBytes; decide +kernel
theorem holdsLen_below : (loaded 0xffffffffffffffff []).holdsLen 0xffffffffffffffff := by
  unfold State.holdsLen State.holdsBytes
  decide +kernel
theorem holdsLen_bound : (loaded 0x10000000000000000 []).holdsLen 0x10000000000000000 := by
  unfold State.holdsLen State.holdsBytes
  decide +kernel
theorem holdsLen_top : (loaded 0xfffffffffffffff8 (zeros 64)).holdsLen 0xfffffffffffffff8 := by
  unfold State.holdsLen State.holdsBytes
  decide +kernel
theorem holdsLen_abc : (loaded 24 [0x61, 0x62, 0x63]).holdsLen 24 := by
  unfold State.holdsLen State.holdsBytes
  decide +kernel

theorem lacks_len : State.reset.lacks 0x010 16 := ⟨0, by decide, rfl⟩
theorem lacks_blk (c : Nat) (h : 0 < c) (l : BitVec 128) (s : State) (hs : s.mem = (loaded l []).mem)
    (hb : (loaded l []).mem.read 0x040 = none) : s.lacks 0x040 c := ⟨0, h, by rw [hs]; exact hb⟩
theorem blk_unwritten : (loaded 24 []).mem.read 0x040 = none := by decide +kernel

theorem witness_ResetState :
    step { State.reset with inputs := [.reset], rem := 5 } = .next State.reset := rfl

theorem witness_ResetIsInitWithEmptyBuffers : (loaded 24 [0x61]).busy = false := rfl

theorem witness_RotateChooseMajorityBits :
    (1 ≤ 1 ∧ 1 ≤ 31 ∧ 0 < 32) ∧ (1 ≤ 31 ∧ 31 ≤ 31 ∧ 31 < 32) := by decide

theorem witness_SigmaBits : (28 + 3 < 32 ∧ ¬ 29 + 3 < 32) ∧ (21 + 10 < 32 ∧ ¬ 22 + 10 < 32) ∧ 31 < 32 := by decide

theorem witness_ConstantsFromPrimeRoots : roundConstant 0 = 0x428a2f98 ∧ roundConstant 63 = 0xc67178f2 := by decide

theorem witness_ScheduleRecurrence : (zeros 64).length = 64 ∧ 15 < 16 ∧ 16 ≤ 16 ∧ 16 ≤ 63 ∧ 63 < 64 := by decide

theorem witness_PadBytes :
    (zeros 0).length ≤ 64 ∧ (zeros 55).length ≤ 55 ∧ ¬ (zeros 56).length ≤ 55 ∧ (zeros 64).length ≤ 64 ∧
      (55 < 56 ∧ 56 + 8 = (pad (zeros 55) 0).length) ∧ (64 < 65 ∧ 65 + 8 < (pad (zeros 64) 0).length) := by decide +kernel

theorem witness_CompressIsSixtyFourRounds : (0 < 64 ∧ 63 < 64) ∧ (schedule (zeros 64)).length = 64 := by
  simp

theorem witness_HexDigits :
    (0 < 8 ∧ 7 < 8) ∧ hex (Vector.replicate 8 0) = hex (Vector.replicate 8 0) ∧
      hex (Vector.replicate 8 0) ≠ hex (Vector.replicate 8 1) := by decide +kernel

theorem witness_EncodeDecodeAgree :
    Instr.wellFormed (.chunk 127) = true ∧ decode 0x7F7 = .ok (.chunk 127) ∧ decode 0x004 = .ok (.final 0) := by decide

theorem witness_IllegalWords :
    decode 0x0 = .error (.reservedOpcode 0) ∧ decode 0x7F8 = .error (.reservedOpcode 8) ∧
      decode 0x80000003 = .error (.reservedBits 0x100000) ∧ decode 0x7F6 = .error (.operandNotZero 6 127) ∧
      State.reset.err = .none ∧ afterError.err ≠ .none := by decide

theorem witness_DecodeMatchesOpcodeTable :
    decode 0x7F3 = .ok (.pad 127) ∧ ⟨"PAD", 0x00000003, 0xFFFFF80F⟩ ∈ opcodeTable ∧
      OpcodeRow.covers ⟨"PAD", 0x00000003, 0xFFFFF80F⟩ 0x7F3 = true := by decide

/-- A write of START by host 0, to an instance no host or host 0 drives. -/
theorem witness_StepRunsDecodedCommand :
    State.reset.inputs = [] ∧
      ({ loaded 24 [] with inputs := [.access ⟨0, 4, 0x000, .write 6⟩], owner := some 0 } : State).busy = false ∧
      decode 6 = .ok .start ∧ decodeTableWord 32 6 = some .start ∧
      after (step ((loaded 24 []).withFetchWord 32 6)) State.drv = some .read := by decide +kernel

theorem witness_InitCommand :
    afterError.busy = false ∧ after (exec .init afterError) State.err = some .none ∧
      (opField 0x011 = 1 ∧ clenField 0x011 ≠ 0) ∧ (opField 0x80000001 = 1 ∧ rsvdField 0x80000001 ≠ 0) := by
  decide +kernel

theorem witness_CompressCommand :
    afterError.err ≠ .none ∧
      ((reading 65 65 State.reset).err = .none ∧ (reading 65 65 State.reset).drv = .read) ∧
      (State.reset.err = .none ∧ State.reset.drv ≠ .read ∧ State.reset.lacks 0x040 64) ∧
      ((loaded 0 (zeros 64)).err = .none ∧ (loaded 0 (zeros 64)).drv ≠ .read ∧ (zeros 64).length = 64 ∧
        (loaded 0 (zeros 64)).holdsBytes 0x040 (zeros 64)) :=
  ⟨by decide, by decide, ⟨rfl, by decide, 63, by decide, rfl⟩, rfl, by decide, by decide, loaded_holdsBlk _ _⟩

/-- The cases of PAD: the error state; READ; 65 bytes; LEN unwritten; 2^64 bits; a byte of BLK unwritten; no byte; 64
bytes and the largest whole-byte length. -/
theorem witness_PadCommand :
    (127 < 128 ∧ afterError.err ≠ .none) ∧
      ((reading 3 3 State.reset).err = .none ∧ (reading 3 3 State.reset).drv = .read) ∧
      (State.reset.err = .none ∧ State.reset.drv ≠ .read ∧ 64 < 65 ∧ State.reset.lacks 0x010 16) ∧
      (loaded 0x10000000000000000 []).holdsLen 0x10000000000000000 ∧
      ((loaded 24 [0x61, 0x62, 0x63]).holdsLen 24 ∧ (loaded 24 []).lacks 0x040 1) ∧
      ((loaded 0 []).holdsLen 0 ∧ (loaded 0 []).holdsBytes 0x040 [] ∧ (loaded 0 []).err = .none ∧
        (loaded 0 []).drv ≠ .read) ∧
      ((loaded 0xfffffffffffffff8 (zeros 64)).holdsLen 0xfffffffffffffff8 ∧ (zeros 64).length = 64 ∧
        (loaded 0xfffffffffffffff8 (zeros 64)).holdsBytes 0x040 (zeros 64)) :=
  ⟨by decide, by decide, ⟨rfl, by decide, by decide, lacks_len⟩, holdsLen_bound,
    ⟨holdsLen_abc, lacks_blk 1 (by decide) 24 _ rfl blk_unwritten⟩,
    ⟨holdsLen_zero, loaded_holdsBlk _ _, rfl, by decide⟩, holdsLen_top, by decide, loaded_holdsBlk _ _⟩

/-- FINAL has PAD's hypotheses. -/
theorem witness_FinalCommand :
    (loaded 0xfffffffffffffff8 (zeros 64)).holdsLen 0xfffffffffffffff8 ∧
      (loaded 0xfffffffffffffff8 (zeros 64)).holdsBytes 0x040 (zeros 64) ∧ State.reset.lacks 0x010 16 ∧
      (loaded 0x10000000000000000 []).holdsLen 0x10000000000000000 ∧ (loaded 24 []).lacks 0x040 1 :=
  ⟨witness_PadCommand.2.2.2.2.2.2.1, witness_PadCommand.2.2.2.2.2.2.2.2, lacks_len, holdsLen_bound,
    witness_PadCommand.2.2.2.2.1.2⟩

theorem witness_FormatCommand :
    afterError.err ≠ .none ∧ ((reading 3 3 State.reset).err = .none ∧ (reading 3 3 State.reset).drv = .read) ∧
      (State.reset.err = .none ∧ State.reset.drv ≠ .read) := by decide

/-- LEN unwritten; 2^64; 2^64 - 1; 1; 0. -/
theorem witness_StartCommand :
    (State.reset.err = .none ∧ State.reset.drv ≠ .read ∧ State.reset.lacks 0x010 16) ∧
      (loaded 0x10000000000000000 []).holdsLen 0x10000000000000000 ∧
      ((loaded 0xffffffffffffffff []).holdsLen 0xffffffffffffffff ∧
        (0xffffffffffffffff : BitVec 128).toNat % 8 ≠ 0) ∧
      (loaded 1 []).holdsLen 1 ∧ (loaded 0 []).holdsLen 0 ∧
      ((loaded 0xfffffffffffffff8 (zeros 64)).holdsLen 0xfffffffffffffff8 ∧
        (0xfffffffffffffff8 : BitVec 128).toNat % 8 = 0) :=
  ⟨⟨rfl, by decide, lacks_len⟩, holdsLen_bound, ⟨holdsLen_below, by decide⟩, holdsLen_one, holdsLen_zero, holdsLen_top,
    by decide⟩

/-- 63 and 65 bytes where 64 are due; BLK unwritten; a direct block (65 due); the last chunk of 64 and of 0 bytes. -/
theorem witness_ChunkCommand :
    ((reading 65 65 State.reset).err = .none ∧ (reading 65 65 State.reset).drv = .read ∧
        63 < min 64 (reading 65 65 State.reset).rem.toNat ∧ min 64 (reading 65 65 State.reset).rem.toNat < 65) ∧
      (64 = min 64 (reading 65 65 State.reset).rem.toNat ∧ (reading 65 65 State.reset).lacks 0x040 64) ∧
      (64 < (reading 65 65 (loaded 520 (zeros 64))).rem.toNat ∧
        (reading 65 65 (loaded 520 (zeros 64))).holdsBytes 0x040 (zeros 64)) ∧
      ((reading 64 64 (loaded 512 (zeros 64))).rem.toNat ≤ 64 ∧
        64 = min 64 (reading 64 64 (loaded 512 (zeros 64))).rem.toNat ∧
        (reading 64 64 (loaded 512 (zeros 64))).holdsBytes 0x040 (zeros 64)) ∧
      (0 = min 64 (reading 0 0 (loaded 0 [])).rem.toNat ∧ (reading 0 0 (loaded 0 [])).holdsBytes 0x040 []) :=
  ⟨by decide, ⟨by decide, 0, by decide, rfl⟩, ⟨by decide, loaded_holdsBlk _ _⟩,
    ⟨by decide, by decide, loaded_holdsBlk _ _⟩, by decide, loaded_holdsBlk _ _⟩

theorem witness_ErrorsArePrecise :
    State.reset.err = .none ∧ after (accessReg .cmd (.write 0) State.reset) State.err = some .illegalCmd := by
  decide +kernel

theorem witness_ErrorStateIgnoresCommands :
    afterError.err ≠ .none ∧ afterError.drv = .error ∧ (0x00000005 : Word) ≠ 0x00000001 ∧
      after (step { afterError with inputs := [.reset] }) State.err = some .none ∧
      after (accessReg .cmd (.write 0x00000001) afterError) State.err = some .none := by decide +kernel

theorem witness_ErrorIsSticky :
    (afterError.drv = .error ↔ afterError.err ≠ .none) ∧ afterError.err ≠ .none ∧
      after (step (afterError.withFetchWord 32 0x5)) State.err = some .illegalCmd := by decide +kernel

theorem witness_SequenceTable :
    (afterError.err ≠ .none ∧ Instr.format ≠ .init) ∧ (State.reset.err = .none ∧ State.reset.drv = .idle) ∧
      (reading 3 3 State.reset).drv = .read ∧
      ({ State.reset with drv := .done } : State).drv ≠ .error ∧
      after (exec .compress { loaded 0 (zeros 64) with drv := .done }) (fun t => (t.err, t.drv)) =
        some (.none, .idle) := by decide +kernel

theorem witness_ErrorCauses :
    (loaded 0x10000000000000000 []).err = .none ∧
      after (exec (.final 64) (loaded 0x10000000000000000 [])) State.err = some .inputTooLarge ∧
      after (exec (.chunk 63) (reading 64 64 State.reset)) State.err = some .ioError ∧
      after (exec (.chunk 1) (reading 0 0 State.reset)) State.err = some .contract := by decide +kernel

/-- The last chunk changes HREG, PADBUF, DIGEST, DRV, DV, PADCNT and REM; START changes DLEN. -/
theorem witness_CoreWritesTable :
    after (exec (.chunk 3) (reading 3 3 (loaded 24 [0x61, 0x62, 0x63])))
        (fun t => (t.mem.read 0x082, t.mem.read 0x100, t.drv, t.dv, t.padcnt)) =
        some (some 0x63, some 0x62, .done, true, .one) ∧
      after (exec (.chunk 3) (reading 3 3 (loaded 24 [0x61, 0x62, 0x63]))) (fun t => (t.hreg[0], t.rem)) =
        some (0xba7816bf, 0) ∧
      after (exec .start (loaded 24 [])) State.dlen = some 24 := by decide +kernel

theorem witness_DriverTransitions :
    ((loaded 24 []).drv = .error ↔ (loaded 24 []).err ≠ .none) ∧
      after (exec .start (loaded 24 [])) State.drv = some .read ∧
      after (exec (.chunk 0) (reading 0 0 (loaded 0 []))) State.drv = some .done ∧
      after (exec (.chunk 0) State.reset) State.drv = some .error ∧
      after (exec .init afterError) State.drv = some .idle ∧
      after (exec (.final 0) { loaded 0 [] with drv := .done }) State.drv = some .idle := by decide +kernel

theorem witness_DigestValidCauses :
    (State.reset.drv = .read → State.reset.dv = false) ∧
      after (accessReg .cmd (.write 0x00000005) State.reset) State.dv = some true ∧
      after (accessReg .cmd (.write 0x00000007) (reading 0 0 State.reset)) State.dv = some true ∧
      after (accessReg .status .read { State.reset with dv := true }) State.dv = some true := by decide +kernel

theorem witness_WindowMap :
    windowReg 0x01C = some (.len 3) ∧ windowReg 0x03C = some (.hreg 7) ∧ windowReg 0x07C = some (.blkw 15) ∧
      windowReg 0x0FC = some (.padw 31) ∧ windowReg 0x13C = some (.digw 15) ∧ windowReg 0x148 = none ∧
      windowReg 0x1FC = none := by decide

theorem witness_HostWrites :
    decode 0x1 = .ok .init ∧ (loaded 24 [0x61, 0x62, 0x63]).holdsLen 24 ∧ State.reset.drv ≠ .read ∧
      (reading 0 0 State.reset).drv = .read := ⟨by decide, holdsLen_abc, by decide, by decide⟩

theorem witness_HostReads :
    word .rem0 (reading 3 3 State.reset) = some 3 ∧ State.reset.lacks 0x13C 4 ∧ (reading 3 3 State.reset).busy = false ∧
      (loaded 24 [1, 2, 3, 4]).holdsBytes 0x040 [1, 2, 3, 4] :=
  ⟨by decide, ⟨0, by decide, rfl⟩, rfl, loaded_holdsBlk _ _⟩

/-- The first and the last offset of the map that can be written, and the first ones that cannot. -/
theorem witness_BusErrors :
    foreignHost ⟨0, 4, 0x07C, .write 0⟩ State.reset = false ∧ State.reset.busy = false ∧
      faultOf (hostAccess ⟨0, 4, 0x07C, .write 0⟩ State.reset) = none ∧
      faultOf (hostAccess ⟨0, 4, 0x080, .write 0⟩ State.reset) = some (.readOnlyWrite 0x080) ∧
      faultOf (hostAccess ⟨0, 4, 0x144, .write 0⟩ State.reset) = some (.readOnlyWrite 0x144) ∧
      faultOf (hostAccess ⟨0, 4, 0x148, .read⟩ State.reset) = some (.reservedOffset 0x148) ∧
      faultOf (hostAccess ⟨0, 4, 0x1FC, .read⟩ State.reset) = some (.reservedOffset 0x1FC) := by decide +kernel

theorem witness_BusyAccesses :
    foreignHost ⟨0, 4, 0x004, .read⟩ { State.reset with busy := true } = false ∧
      faultOf (hostAccess ⟨0, 4, 0x020, .read⟩ { State.reset with busy := true }) = some .accessWhileBusy := by
  decide +kernel

theorem witness_SecondHostFaults :
    ({ State.reset with owner := some 0 } : State).owner = some 0 ∧
      faultOf (hostAccess ⟨1, 4, 0x004, .read⟩ { State.reset with owner := some 0 }) = some (.secondHost 1) ∧
      after (hostAccess ⟨1, 4, 0x004, .read⟩ State.reset) State.owner = some (some 1) := by decide +kernel

theorem witness_StatusLayout : afterError.busy = false := rfl

theorem witness_WideRegisterWords : (loaded 0xfffffffffffffff8 (zeros 64)).holdsLen 0xfffffffffffffff8 := holdsLen_top

theorem witness_WrlenWritesLen :
    ({ State.reset with inputs := ((HostLine.wrlen 24).accesses 0).map Input.access ++ [.reset] } : State).inputs.length
        = 5 ∧ State.reset.owner = none ∧ ({ State.reset with owner := some 0 } : State).owner = some 0 ∧
      State.reset.busy = false := by decide

/-- No byte, one byte, and 64 bytes. -/
theorem witness_WrblkWritesBlk :
    ((HostLine.wrblk []).accesses 0).length = 0 ∧ ((HostLine.wrblk [0x61]).accesses 0).length = 1 ∧
      ((HostLine.wrblk (zeros 64)).accesses 0).length = 16 ∧ (zeros 64).length ≤ 64 := by decide

/-- Two states that differ in BLK[3], and PAD 3. -/
theorem witness_PaddingReadsOnlyTheChunk :
    (∀ x, x < 0x040 + 3 ∨ 0x080 ≤ x →
        ((loaded 24 [0x61, 0x62, 0x63]).store 0x043 [9]).mem.read x = (loaded 24 [0x61, 0x62, 0x63]).mem.read x) ∧
      (reading 3 3 State.reset).rem.toNat ≤ 64 ∧
      after (exec (.pad 3) (loaded 24 [0x61, 0x62, 0x63])) State.padcnt = some .one :=
  ⟨fun x hx => store_same _ (a := 0x043) (n := 1) rfl x (by omega), by decide, by decide +kernel⟩

/-- Two states that differ in LEN, and CHUNK 0. -/
theorem witness_ChunkDoesNotReadLen :
    (∀ x, x < 0x010 ∨ 0x020 ≤ x →
        ((reading 0 0 State.reset).store 0x010 [9]).mem.read x = (reading 0 0 State.reset).mem.read x) ∧
      after (exec (.chunk 0) (reading 0 0 State.reset)) State.drv = some .done :=
  ⟨fun x hx => store_same _ (a := 0x010) (n := 1) rfl x (by omega), by decide +kernel⟩

/-- The state after reset with INIT issued meets the invariant, and steps. -/
theorem witness_StepKeepsInvariant :
    (State.reset.withFetchWord 32 1).Inv ∧ after (step (State.reset.withFetchWord 32 1)) State.inputs = some [] := by
  refine ⟨?_, by decide +kernel⟩
  constructor <;> simp [State.withFetchWord, State.reset, Memory.wf, Memory.inBuffers]

theorem witness_ChunkAndBlockCounts :
    0 + 1 < (chunksOf (zeros 65)).length ∧ (chunksOf ([] : List Byte)).length = 1 ∧ (chunksOf (zeros 64)).length = 1 := by
  decide

/-- The stream "abc". -/
theorem witness_DriverHashesStream :
    8 * ([0x61, 0x62, 0x63] : List Byte).length < 2 ^ 64 ∧ (loaded 24 [0x61, 0x62, 0x63]).err = .none ∧
      (loaded 24 [0x61, 0x62, 0x63]).drv ≠ .read ∧ (loaded 24 [0x61, 0x62, 0x63]).holdsLen 24 ∧
      (24 : BitVec 128).toNat = 8 * ([0x61, 0x62, 0x63] : List Byte).length :=
  ⟨by decide, rfl, by decide, holdsLen_abc, by decide⟩

/-- 64 bytes may be given as one block or as FINAL's bytes; "abc" only as FINAL's. -/
theorem witness_IncrementalHashesMessage :
    (64 * 1 ≤ (zeros 64).length ∧ (zeros 64).length ≤ 64 * 0 + 64) ∧
      (loaded 24 [0x61, 0x62, 0x63]).holdsLen 24 ∧ (24 : BitVec 128).toNat = 8 * ([0x61, 0x62, 0x63] : List Byte).length ∧
      64 * 0 ≤ ([0x61, 0x62, 0x63] : List Byte).length ∧ ([0x61, 0x62, 0x63] : List Byte).length ≤ 64 * 0 + 64 :=
  ⟨by decide, holdsLen_abc, by decide, by decide, by decide⟩

/-- Two instances just reset. -/
def pair : Platform := Platform.reset [0x200, 0x400]

/-- The platform an answer leaves, seen through `f` of each instance. -/
def afterAll {α : Type} (r : Host.Outcome Platform Fault Refusal) (f : Slot → α) : List α :=
  match r with
  | .next p => p.map f
  | .fault _ => []
  | .refused _ => []

/-- The first word of the second window; a word of it no byte of which is written; the last address of the first
window. -/
theorem witness_InstancesAreIndependent :
    pair.wf ∧
      afterAll (Platform.access ⟨0, 4, 0x400, .read⟩ pair) (fun sl => (sl.core.reads, sl.fault)) =
        [([], none), ([0], none)] ∧
      afterAll (Platform.access ⟨0, 4, 0x440, .read⟩ pair) (fun sl => (sl.core == State.reset, sl.fault)) =
        [(true, none), (true, some (.unwrittenByte 0x040))] ∧
      afterAll (Platform.access ⟨0, 4, 0x3FF, .read⟩ pair) Slot.fault = [some (.misaligned 0x1FF), none] := by
  decide +kernel

theorem witness_InstancesStartAtReset :
    [0x200, 0x400] ≠ [] ∧ (∀ b ∈ [0x200, 0x400], b % 0x200 = 0) ∧ [0x200, 0x400].Nodup ∧ pair.wf ∧
      pair[1]? = some ⟨0x400, State.reset, none⟩ ∧
      afterAll (Platform.resetInstance 0x400 pair) Slot.core = [State.reset, State.reset] := by decide +kernel

/-- The first instance faults; the second goes on and runs INIT and FORMAT. -/
theorem witness_InstanceSeesOnlyItsEvents :
    pair.wf ∧
      afterAll (Platform.run [.access ⟨0, 4, 0x208, .read⟩, .access ⟨1, 4, 0x400, .write 1⟩, .reset 0x200,
          .access ⟨1, 4, 0x400, .write 5⟩] pair) (fun sl => (sl.core.dv, sl.fault)) =
        [(false, some (.reservedOffset 0x008)), (true, none)] := by decide +kernel

end Sys2Proof.Machine.Tests
end

section
/-! Laws of the window words: a stored word reads back and leaves the others alone, and LEN is its four words (R54,
R55). -/

namespace Sys2Proof.Machine

variable {s : State} {m : Memory}

/-! ### One word of a buffer -/

theorem holdsBytes_wordBytes_iff {a : Nat} {v : Word} : s.holdsBytes a (wordBytes v) ↔ s.mem.fetchWord a = .ok v :=
  ⟨fun h => (fetchWord_eq_ok_iff ..).2 (fetchBytes_of_holds h),
    fun h => holds_of_fetchBytes ((fetchWord_eq_ok_iff ..).1 h)⟩

theorem fetchWord_error_unwritten {a : Nat} {f : Fault} (h : m.fetchWord a = .error f) :
    ∃ x, f = .unwrittenByte x := by
  unfold Memory.fetchWord at h
  split at h
  · obtain ⟨j, -, -, -, hf⟩ := Memory.fetchBytes_error_cases ‹_›
    cases h
    exact ⟨_, hf⟩
  · cases h

theorem fetchWord_storeWord (s : State) (a : Nat) (v : Word) :
    (s.store a (wordBytes v)).mem.fetchWord a = .ok v :=
  holdsBytes_wordBytes_iff.1 (store_holds s a _)

theorem fetchWord_storeWord_disjoint (s : State) {a b : Nat} (v : Word) (h : b + 4 ≤ a ∨ a + 4 ≤ b) :
    (s.store a (wordBytes v)).mem.fetchWord b = s.mem.fetchWord b := by
  have hb : (s.store a (wordBytes v)).mem.fetchBytes b 4 = s.mem.fetchBytes b 4 :=
    Memory.fetchBytes_congr fun x _ _ => store_same s (wordBytes_length v) x (by omega)
  unfold Memory.fetchWord
  rw [hb]

/-! ### LEN as four words -/

/-- LEN with window word LENk = `w k`, in the order of `fetchLen` (R25, R55). -/
def lenOfWords (w : Fin 4 → Word) : BitVec 128 := w 3 ++ w 2 ++ w 1 ++ w 0

theorem append_extract_low {n : Nat} (v : BitVec n) (x : Word) : (v ++ x).extractLsb' 0 32 = x := by
  ext i hi
  simp [BitVec.getLsbD_append, hi]

theorem append_extract_high {n : Nat} (v : BitVec n) (x : Word) {a : Nat} (h : 32 ≤ a) :
    (v ++ x).extractLsb' a 32 = v.extractLsb' (a - 32) 32 := by
  ext i hi
  simp [BitVec.getLsbD_append, show ¬ a + i < 32 by omega, show a + i - 32 = a - 32 + i by omega]

@[simp] theorem lenOfWords_extract (w : Fin 4 → Word) (k : Fin 4) :
    (lenOfWords w).extractLsb' (32 * k) 32 = w k := by
  unfold lenOfWords
  fin_cases k <;> simp [append_extract_high, append_extract_low]

theorem lenOfWords_words (l : BitVec 128) : lenOfWords (fun k => l.extractLsb' (32 * k) 32) = l := by
  show l.extractLsb' 96 32 ++ l.extractLsb' 64 32 ++ l.extractLsb' 32 32 ++ l.extractLsb' 0 32 = l
  rw [BitVec.extractLsb'_append_extractLsb'_eq_extractLsb', BitVec.extractLsb'_append_extractLsb'_eq_extractLsb',
    BitVec.extractLsb'_append_extractLsb'_eq_extractLsb', BitVec.extractLsb'_eq_self] <;> rfl

theorem fetchLen_of_words {w : Fin 4 → Word} (h : ∀ k : Fin 4, m.fetchWord (lenBase + 4 * k) = .ok (w k)) :
    fetchLen m = .ok (lenOfWords w) := by
  have h0 : m.fetchWord lenBase = .ok (w 0) := h 0
  have h1 : m.fetchWord (lenBase + 4) = .ok (w 1) := h 1
  have h2 : m.fetchWord (lenBase + 8) = .ok (w 2) := h 2
  have h3 : m.fetchWord (lenBase + 12) = .ok (w 3) := h 3
  simp [fetchLen, h0, h1, h2, h3, lenOfWords]

theorem words_of_fetchLen {l : BitVec 128} (h : fetchLen m = .ok l) :
    ∃ w : Fin 4 → Word, (∀ k : Fin 4, m.fetchWord (lenBase + 4 * k) = .ok (w k)) ∧ l = lenOfWords w := by
  unfold fetchLen at h
  split at h
  · rename_i l0 l1 l2 l3 h0 h1 h2 h3
    refine ⟨![l0, l1, l2, l3], fun k => ?_, by cases h; rfl⟩
    match k with
    | 0 => exact h0
    | 1 => exact h1
    | 2 => exact h2
    | 3 => exact h3
  all_goals cases h

/-- A command reads `l` from LEN exactly when each word LENk is `l[32k+31 : 32k]` (R25, R55). -/
theorem fetchLen_eq_ok_iff {l : BitVec 128} :
    fetchLen m = .ok l ↔ ∀ k : Fin 4, m.fetchWord (lenBase + 4 * k) = .ok (l.extractLsb' (32 * k) 32) := by
  constructor
  · intro h
    obtain ⟨w, hw, rfl⟩ := words_of_fetchLen h
    simpa using hw
  · intro h
    rw [fetchLen_of_words h, lenOfWords_words]

theorem fetchLen_error_unwritten {f : Fault} (h : fetchLen m = .error f) : ∃ x, f = .unwrittenByte x := by
  unfold fetchLen at h
  split at h
  · cases h
  all_goals
    cases h
    exact fetchWord_error_unwritten ‹_›

theorem holdsLen_iff_words {l : BitVec 128} :
    s.holdsLen l ↔ ∀ k : Fin 4, s.mem.fetchWord (lenBase + 4 * k) = .ok (l.extractLsb' (32 * k) 32) := by
  simp only [State.holdsLen, holdsBytes_wordBytes_iff, Fin.forall_iff]
  rfl

/-- Storing word `k` of LEN replaces that word of the value LEN holds and keeps the other three. -/
theorem holdsLen_storeWord {l : BitVec 128} (h : s.holdsLen l) (k : Fin 4) (v : Word) :
    (s.store (lenBase + 4 * k) (wordBytes v)).holdsLen
      (lenOfWords (Function.update (fun j => l.extractLsb' (32 * j) 32) k v)) := by
  rw [holdsLen_iff_words] at h ⊢
  intro j
  rw [lenOfWords_extract]
  by_cases hj : j = k
  · subst hj
    rw [fetchWord_storeWord, Function.update_self]
  · have hne : (j : Nat) ≠ k := fun e => hj (Fin.ext e)
    rw [fetchWord_storeWord_disjoint _ _ (by omega), h j, Function.update_of_ne hj]

end Sys2Proof.Machine
end

section
/-! Laws of the register window: what one access of a register does, and which faults it can meet (R51, R56, R57). -/

namespace Sys2Proof.Machine

variable {s : State}

/-! ### What an access of a register does -/

theorem accessReg_cmd_write {v : Word} {i : Instr} (h : decode v = .ok i) (s : State) :
    accessReg .cmd (.write v) s = exec i s := by
  simp [accessReg, writeReg, issue, h]

theorem accessReg_len_write (k : Fin 4) (v : Word) (s : State) :
    accessReg (.len k) (.write v) s = .next (s.store (lenBase + 4 * k) (wordBytes v)) := rfl

theorem accessReg_blkw_write (i : Fin 16) (v : Word) (s : State) :
    accessReg (.blkw i) (.write v) s = .next (s.store (blkBase + 4 * i) (wordBytes v)) := rfl

theorem accessReg_hreg_write (i : Fin 8) (v : Word) (s : State) :
    accessReg (.hreg i) (.write v) s = writeHreg i v s := rfl

theorem accessReg_hreg_read (i : Fin 8) (s : State) :
    accessReg (.hreg i) .read s = .next (s.returnRead s.hreg[i]) := rfl

theorem readReg_len (k : Fin 4) (s : State) : readReg (.len k) s = s.mem.fetchWord (lenBase + 4 * k) := rfl

theorem unlessReading_of_ne (h : s.drv ≠ .read) (k : Result) : unlessReading s k = k := if_neg h

theorem unlessReading_of_eq (h : s.drv = .read) (k : Result) : unlessReading s k = .next (s.raise .sequence) := if_pos h

theorem writeHreg_of_ne_read (h : s.drv ≠ .read) (i : Fin 8) (v : Word) :
    writeHreg i v s = .next ((s.setHash (s.hreg.set i v)).setDv false) := unlessReading_of_ne h _

theorem writeHreg_of_read (h : s.drv = .read) (i : Fin 8) (v : Word) :
    writeHreg i v s = .next (s.raise .sequence) := unlessReading_of_eq h _

/-! ### A command faults on an unwritten byte only -/

/-- The only model fault the result can be is R38's. -/
def FaultsOnlyUnwritten (r : Result) : Prop := ∀ f, r = .fault f → ∃ x, f = .unwrittenByte x

theorem next_faultsOnlyUnwritten (t : State) : FaultsOnlyUnwritten (.next t) := nofun

theorem raised_faultsOnlyUnwritten (e : ErrCode) (s : State) : FaultsOnlyUnwritten (raised e s) := nofun

theorem whenErrorFree_faultsOnlyUnwritten {k : Result} (h : FaultsOnlyUnwritten k) :
    FaultsOnlyUnwritten (whenErrorFree s k) := by
  unfold whenErrorFree
  split
  · exact h
  · exact next_faultsOnlyUnwritten s

theorem unlessReading_faultsOnlyUnwritten {k : Result} (h : FaultsOnlyUnwritten k) :
    FaultsOnlyUnwritten (unlessReading s k) := by
  unfold unlessReading
  split
  · exact raised_faultsOnlyUnwritten _ s
  · exact h

theorem unlessOverlong_faultsOnlyUnwritten {c : Nat} {k : Result} (h : FaultsOnlyUnwritten k) :
    FaultsOnlyUnwritten (unlessOverlong c s k) := by
  unfold unlessOverlong
  split
  · exact raised_faultsOnlyUnwritten _ s
  · exact h

theorem unlessTooLarge_faultsOnlyUnwritten {l : BitVec 128} {k : BitVec 64 → Result}
    (h : ∀ x, FaultsOnlyUnwritten (k x)) : FaultsOnlyUnwritten (unlessTooLarge l s k) := by
  unfold unlessTooLarge
  split
  · exact raised_faultsOnlyUnwritten _ s
  · exact h _

theorem withLen_faultsOnlyUnwritten {k : BitVec 128 → Result} (h : ∀ x, FaultsOnlyUnwritten (k x)) :
    FaultsOnlyUnwritten (withLen s k) := by
  unfold withLen
  split
  · intro f hf
    cases hf
    exact fetchLen_error_unwritten ‹_›
  · exact h _

theorem withBlk_faultsOnlyUnwritten {c : Nat} {k : List Byte → Result} (h : ∀ x, FaultsOnlyUnwritten (k x)) :
    FaultsOnlyUnwritten (withBlk s c k) := by
  unfold withBlk
  split
  · intro f hf
    obtain ⟨j, -, -, -, rfl⟩ := Memory.fetchBytes_error_cases ‹_›
    cases hf
    exact ⟨_, rfl⟩
  · exact h _

/-- What PAD and FINAL check and read before they act. -/
theorem checkedChunk_faultsOnlyUnwritten {c : Nat} {k : BitVec 64 → List Byte → Result}
    (h : ∀ l b, FaultsOnlyUnwritten (k l b)) :
    FaultsOnlyUnwritten (whenErrorFree s <| unlessReading s <| unlessOverlong c s <|
      withLen s fun l => unlessTooLarge l s fun l64 => withBlk s c (k l64)) :=
  whenErrorFree_faultsOnlyUnwritten <| unlessReading_faultsOnlyUnwritten <| unlessOverlong_faultsOnlyUnwritten <|
    withLen_faultsOnlyUnwritten fun _ => unlessTooLarge_faultsOnlyUnwritten fun l => withBlk_faultsOnlyUnwritten (h l)

theorem execStart_faultsOnlyUnwritten (s : State) : FaultsOnlyUnwritten (execStart s) := by
  refine whenErrorFree_faultsOnlyUnwritten <| unlessReading_faultsOnlyUnwritten <|
    withLen_faultsOnlyUnwritten fun _ => unlessTooLarge_faultsOnlyUnwritten fun _ => ?_
  split
  · exact raised_faultsOnlyUnwritten _ s
  · exact next_faultsOnlyUnwritten _

theorem execChunk_faultsOnlyUnwritten (c : Nat) (s : State) : FaultsOnlyUnwritten (execChunk c s) := by
  refine whenErrorFree_faultsOnlyUnwritten ?_
  split
  · exact raised_faultsOnlyUnwritten _ s
  split
  · exact raised_faultsOnlyUnwritten _ s
  split
  · exact raised_faultsOnlyUnwritten _ s
  split
  · exact withBlk_faultsOnlyUnwritten fun _ => next_faultsOnlyUnwritten _
  · exact withBlk_faultsOnlyUnwritten fun _ => next_faultsOnlyUnwritten _

theorem exec_faultsOnlyUnwritten (i : Instr) (s : State) : FaultsOnlyUnwritten (exec i s) := by
  cases i with
  | init => exact next_faultsOnlyUnwritten _
  | compress =>
    exact whenErrorFree_faultsOnlyUnwritten <| unlessReading_faultsOnlyUnwritten <|
      withBlk_faultsOnlyUnwritten fun _ => next_faultsOnlyUnwritten _
  | pad c => exact checkedChunk_faultsOnlyUnwritten fun _ _ => next_faultsOnlyUnwritten _
  | final c => exact checkedChunk_faultsOnlyUnwritten fun _ _ => next_faultsOnlyUnwritten _
  | format =>
    exact whenErrorFree_faultsOnlyUnwritten <| unlessReading_faultsOnlyUnwritten <| next_faultsOnlyUnwritten _
  | start => exact execStart_faultsOnlyUnwritten s
  | chunk c => exact execChunk_faultsOnlyUnwritten c s

theorem issue_faultsOnlyUnwritten (v : Word) (s : State) : FaultsOnlyUnwritten (issue v s) := by
  unfold issue
  split
  · exact exec_faultsOnlyUnwritten _ s
  · exact whenErrorFree_faultsOnlyUnwritten (raised_faultsOnlyUnwritten _ s)

theorem readReg_error_unwritten {r : WindowReg} {f : Fault} (h : readReg r s = .error f) :
    ∃ x, f = .unwrittenByte x := by
  cases r with
  | cmd | status | hreg i | rem0 | rem1 => cases h
  | len i | blkw i | padw i | digw i => exact fetchWord_error_unwritten h

/-! ### Bus errors -/

/-- The result is a bus error (R56). -/
def IsBusError (r : Result) : Prop := ∃ f, r = .fault f ∧ f.isBusError = true

theorem FaultsOnlyUnwritten.not_isBusError {r : Result} (h : FaultsOnlyUnwritten r) : ¬ IsBusError r := by
  rintro ⟨f, hf, hb⟩
  obtain ⟨x, rfl⟩ := h f hf
  cases hb

theorem isBusError_fault {f : Fault} (h : f.isBusError = true) : IsBusError (.fault f) := ⟨f, rfl, h⟩

/-- The registers a host write of which is a bus error (R56). -/
def WindowReg.ReadOnly : WindowReg → Prop
  | .status | .padw _ | .digw _ | .rem0 | .rem1 => True
  | .cmd | .len _ | .hreg _ | .blkw _ => False

theorem readOnly_iff_offset (r : WindowReg) :
    r.ReadOnly ↔ r.offset = 0x004 ∨ (0x080 ≤ r.offset ∧ r.offset < 0x148) := by
  cases r <;>
    simp [WindowReg.ReadOnly, WindowReg.offset, cmdOffset, statusOffset, lenBase, hregBase, blkBase, padBase, digBase,
      rem0Offset, rem1Offset] <;>
    omega

theorem accessReg_read_not_isBusError (r : WindowReg) (s : State) : ¬ IsBusError (accessReg r .read s) := by
  unfold accessReg
  cases h : readReg r s with
  | ok v => exact (next_faultsOnlyUnwritten _).not_isBusError
  | error f =>
    obtain ⟨x, rfl⟩ := readReg_error_unwritten h
    rintro ⟨_, ⟨⟩, ⟨⟩⟩

theorem accessReg_write_isBusError_iff (r : WindowReg) (v : Word) (s : State) :
    IsBusError (accessReg r (.write v) s) ↔ r.ReadOnly := by
  cases r with
  | status | padw i | digw i | rem0 | rem1 => exact iff_of_true (isBusError_fault rfl) trivial
  | cmd => exact iff_of_false (issue_faultsOnlyUnwritten v s).not_isBusError id
  | hreg i =>
    exact iff_of_false (unlessReading_faultsOnlyUnwritten (next_faultsOnlyUnwritten _)).not_isBusError id
  | len i | blkw i => exact iff_of_false (next_faultsOnlyUnwritten _).not_isBusError id

/-- An access of a register of the window is a bus error exactly when it is a write of a read-only one (R56). -/
theorem accessReg_isBusError_iff (r : WindowReg) (k : AccessKind) (s : State) :
    IsBusError (accessReg r k s) ↔ (∃ v, k = .write v) ∧ r.ReadOnly := by
  cases k with
  | read => simp [accessReg_read_not_isBusError]
  | write v => simp [accessReg_write_isBusError_iff]

/-! ### The offsets of the window (R53) -/

/-- What the map of the window says of an aligned offset: the register there has that offset, or the offset is
reserved (R53). -/
def MapEntry (o : Nat) : Option WindowReg → Prop
  | some r => r.offset = o
  | none => o = 0x008 ∨ o = 0x00C ∨ 0x148 ≤ o

theorem mapEntry_ite {o : Nat} {c : Prop} [Decidable c] {x y : Option WindowReg} (hx : c → MapEntry o x)
    (hy : ¬ c → MapEntry o y) : MapEntry o (if c then x else y) :=
  iteInduction hx hy

theorem mapEntry_dite {o : Nat} {c : Prop} [Decidable c] {x : c → Option WindowReg} {y : ¬ c → Option WindowReg}
    (hx : ∀ h, MapEntry o (x h)) (hy : ∀ h, MapEntry o (y h)) : MapEntry o (if h : c then x h else y h) := by
  split
  · exact hx _
  · exact hy _

/-- One row of R53's map at a time: `split` would simplify the rest of the map at every row. -/
theorem windowReg_mapEntry {o : Nat} (ho : o % 4 = 0) : MapEntry o (windowReg o) := by
  unfold windowReg
  repeat' (first
    | refine mapEntry_ite (fun _ => ?_) fun _ => ?_
    | refine mapEntry_dite (fun _ => ?_) fun _ => ?_)
  all_goals
    simp only [MapEntry, WindowReg.offset, cmdOffset, statusOffset, lenBase, hregBase, blkBase, padBase, digBase,
      rem0Offset, rem1Offset]
    omega

theorem windowReg_offset {o : Nat} {r : WindowReg} (ho : o % 4 = 0) (h : windowReg o = some r) : r.offset = o := by
  have hmap := windowReg_mapEntry ho
  rwa [h] at hmap

theorem offset_not_reserved (r : WindowReg) : ¬ (r.offset = 0x008 ∨ r.offset = 0x00C ∨ 0x148 ≤ r.offset) := by
  cases r <;>
    simp only [WindowReg.offset, cmdOffset, statusOffset, lenBase, hregBase, blkBase, padBase, digBase, rem0Offset,
      rem1Offset] <;>
    omega

theorem windowReg_eq_none_iff {o : Nat} (ho : o % 4 = 0) :
    windowReg o = none ↔ o = 0x008 ∨ o = 0x00C ∨ 0x148 ≤ o := by
  have hmap := windowReg_mapEntry ho
  cases hr : windowReg o with
  | none =>
    rw [hr] at hmap
    exact iff_of_true rfl hmap
  | some r =>
    refine iff_of_false nofun ?_
    rw [← windowReg_offset ho hr]
    exact offset_not_reserved r

/-! ### Which check of an access answers (R51, R56) -/

section
variable {a : Access} (hh : foreignHost a s = false) (hb : s.busy = false)
include hh hb

theorem hostAccess_of_width (hw : a.width ≠ 4) : hostAccess a s = .fault (.wrongWidth a.width) := by
  simp [hostAccess, hh, hb, hw]

theorem hostAccess_of_misaligned (hw : a.width = 4) (ha : a.offset % 4 ≠ 0) :
    hostAccess a s = .fault (.misaligned a.offset) := by
  simp [hostAccess, hh, hb, hw, ha]

theorem hostAccess_of_reserved (hw : a.width = 4) (ha : a.offset % 4 = 0) (ho : a.offset < windowSize)
    (hr : windowReg a.offset = none) : hostAccess a s = .fault (.reservedOffset a.offset) := by
  simp [hostAccess, hh, hb, hw, ha, hr, Nat.not_le.2 ho]

theorem hostAccess_of_register (hw : a.width = 4) (ha : a.offset % 4 = 0) (ho : a.offset < windowSize)
    {r : WindowReg} (hr : windowReg a.offset = some r) :
    hostAccess a s = accessReg r a.kind (s.setOwner a.host) := by
  simp [hostAccess, hh, hb, hw, ha, hr, Nat.not_le.2 ho]

theorem hostAccess_isBusError_iff (ho : a.offset < windowSize) :
    IsBusError (hostAccess a s) ↔
      a.width ≠ 4 ∨ a.offset % 4 ≠ 0 ∨ a.offset = 0x008 ∨ a.offset = 0x00C ∨ 0x148 ≤ a.offset ∨
        ((∃ v, a.kind = .write v) ∧ (a.offset = 0x004 ∨ (0x080 ≤ a.offset ∧ a.offset < 0x148))) := by
  by_cases hw : a.width = 4
  case neg =>
    rw [hostAccess_of_width hh hb hw]
    exact iff_of_true (isBusError_fault rfl) (.inl hw)
  by_cases ha : a.offset % 4 = 0
  case neg =>
    rw [hostAccess_of_misaligned hh hb hw ha]
    exact iff_of_true (isBusError_fault rfl) (.inr (.inl ha))
  cases hr : windowReg a.offset with
  | none =>
    rw [hostAccess_of_reserved hh hb hw ha ho hr]
    have hres := (windowReg_eq_none_iff ha).1 hr
    exact iff_of_true (isBusError_fault rfl) (by omega)
  | some r =>
    have hres := offset_not_reserved r
    rw [windowReg_offset ha hr] at hres
    rw [hostAccess_of_register hh hb hw ha ho hr, accessReg_isBusError_iff, readOnly_iff_offset,
      windowReg_offset ha hr]
    tauto

end

end Sys2Proof.Machine
end

section
/-! Obligations of the register window (spec/20_memory.md). -/

namespace Sys2Proof.Machine

/-- Settles O39: each word LENk and `fetchLen` are the same fetches (`fetchLen_eq_ok_iff`). -/
theorem wideRegisterWords : Obligations.WideRegisterWords := by
  intro s
  refine ⟨fun l hl k => (readReg_len k s).trans (holdsLen_iff_words.1 hl k),
    fun l => holdsLen_iff_words.trans fetchLen_eq_ok_iff.symm, _, _, rfl, rfl, ?_⟩
  simp only [BitVec.extractLsb'_toNat, Nat.shiftRight_eq_div_pow]
  omega

/-- A write of LENk: what it sets, and what it leaves (R57). -/
theorem lenWrite_effect (s : State) (v : Word) (k : Fin 4) :
    ∃ t, accessReg (.len k) (.write v) s = .next t ∧ t = { s with mem := t.mem } ∧
      s.sameBytesOutside t (0x010 + 4 * k) 4 ∧ readReg (.len k) t = .ok v ∧
      (∀ l, t.holdsLen l → l.extractLsb' (32 * k) 32 = v) ∧
      (∀ l, s.holdsLen l → ∃ l', t.holdsLen l' ∧
        ∀ k' : Fin 4, k' ≠ k → l'.extractLsb' (32 * k') 32 = l.extractLsb' (32 * k') 32) := by
  have hread := fetchWord_storeWord s (lenBase + 4 * k) v
  refine ⟨_, accessReg_len_write k v s, rfl, store_same s (wordBytes_length v),
    (readReg_len k _).trans hread, fun l hl => ?_, fun l hl => ⟨_, holdsLen_storeWord hl k v, fun k' hk => ?_⟩⟩
  · exact Except.ok.inj ((holdsLen_iff_words.1 hl k).symm.trans hread)
  · rw [lenOfWords_extract, Function.update_of_ne hk]

/-- A write of BLKWi: its four bytes, most significant first, and nothing else (R57). -/
theorem blkwWrite_effect (s : State) (v : Word) (i : Fin 16) :
    ∃ t, accessReg (.blkw i) (.write v) s = .next t ∧ t = { s with mem := t.mem } ∧
      s.sameBytesOutside t (0x040 + 4 * i) 4 ∧
      t.mem.read (0x040 + 4 * i) = some (v.extractLsb' 24 8) ∧
      t.mem.read (0x040 + 4 * i + 1) = some (v.extractLsb' 16 8) ∧
      t.mem.read (0x040 + 4 * i + 2) = some (v.extractLsb' 8 8) ∧
      t.mem.read (0x040 + 4 * i + 3) = some (v.extractLsb' 0 8) := by
  have hbytes := store_holds s (blkBase + 4 * i) (wordBytes v)
  exact ⟨_, accessReg_blkw_write i v s, rfl, store_same s (wordBytes_length v), hbytes 0 (by simp),
    hbytes 1 (by simp), hbytes 2 (by simp), hbytes 3 (by simp)⟩

/-- An access of HREGi (R23). -/
theorem hregAccess_effect (s : State) (v : Word) (i : Fin 8) :
    (s.drv ≠ .read → accessReg (.hreg i) (.write v) s = .next { s with hreg := s.hreg.set i v, dv := false }) ∧
    (s.drv = .read → accessReg (.hreg i) (.write v) s = .next (s.raise .sequence) ∧
      (s.raise .sequence).hreg = s.hreg) ∧
    (∃ t, accessReg (.hreg i) .read s = .next t ∧
      t = { s with reads := s.reads ++ [s.hreg[i]], freeReads := t.freeReads }) :=
  ⟨fun h => (accessReg_hreg_write i v s).trans (writeHreg_of_ne_read h i v),
    fun h => ⟨(accessReg_hreg_write i v s).trans (writeHreg_of_read h i v), State.raise_hreg s _⟩,
    _, accessReg_hreg_read i s, rfl⟩

/-- Settles O33, one register at a time. -/
theorem hostWrites : Obligations.HostWrites := fun s v =>
  ⟨fun _ h => accessReg_cmd_write h s, lenWrite_effect s v, blkwWrite_effect s v, hregAccess_effect s v⟩

/-- Settles O35, by the first check of the access that answers. -/
theorem busErrors : Obligations.BusErrors := fun _ _ hh hb ho =>
  ⟨hostAccess_isBusError_iff hh hb ho, rfl⟩

end Sys2Proof.Machine
end

section
/-! Laws of illegal command words: which words do not decode, and what issuing one does (R81, R85, R240, R246). -/

namespace Sys2Proof.Machine

variable {s : State} {v : Word}

/-! ### The fields of a word as numbers (R81) -/

theorem opField_toNat (v : Word) : (opField v).toNat = v.toNat % 16 := by
  simp [opField, BitVec.extractLsb'_toNat]

theorem clenField_toNat (v : Word) : (clenField v).toNat = v.toNat / 16 % 128 := by
  simp [clenField, BitVec.extractLsb'_toNat, Nat.shiftRight_eq_div_pow]

theorem rsvdField_toNat (v : Word) : (rsvdField v).toNat = v.toNat / 2048 := by
  simp only [rsvdField, BitVec.extractLsb'_toNat, Nat.shiftRight_eq_div_pow]
  omega

theorem clenField_eq_zero_iff : clenField v = 0 ↔ v.toNat / 16 % 128 = 0 := by
  rw [← clenField_toNat, BitVec.toNat_eq]
  rfl

theorem rsvdField_eq_zero_iff : rsvdField v = 0 ↔ v.toNat / 2048 = 0 := by
  rw [← rsvdField_toNat, BitVec.toNat_eq]
  rfl

/-! ### Which words are illegal (R85) -/

theorem decodeFixed_illegal_iff (i : Instr) : (∃ e, decodeFixed i v = .error e) ↔ clenField v ≠ 0 := by
  unfold decodeFixed
  split
  · exact iff_of_false nofun (not_not_intro ‹_›)
  · exact iff_of_true ⟨_, rfl⟩ ‹_›

/-- The three kinds of R85, in the fields of the word: one case per line of `decode`. -/
theorem decode_illegal_iff :
    (∃ e, decode v = .error e) ↔
      rsvdField v ≠ 0 ∨ ((opField v).toNat = 0 ∨ 8 ≤ (opField v).toNat) ∨
        ((opField v).toNat ∈ [1, 2, 5, 6] ∧ clenField v ≠ 0) := by
  unfold decode
  split
  · exact iff_of_true ⟨_, rfl⟩ (.inl ‹_›)
  · have hrsvd : rsvdField v = 0 := not_not.1 ‹_›
    split
    case h_1 hop | h_2 hop | h_5 hop | h_6 hop => simp [decodeFixed_illegal_iff, hrsvd, hop]
    case h_3 hop | h_4 hop | h_7 hop => simp [hrsvd, hop]
    case h_8 =>
      simp only [imp_false] at *
      refine iff_of_true ⟨_, rfl⟩ (.inr (.inl ?_))
      omega

/-! ### What issuing an illegal word does (R240, R246) -/

theorem whenErrorFree_of_none (h : s.err = .none) (k : Result) : whenErrorFree s k = k := if_pos h

theorem whenErrorFree_of_ne (h : s.err ≠ .none) (k : Result) : whenErrorFree s k = .next s := if_neg h

theorem accessReg_cmd_write_illegal {e : DecodeError} (h : decode v = .error e) (s : State) :
    accessReg .cmd (.write v) s = whenErrorFree s (raised .illegalCmd s) := by
  simp [accessReg, writeReg, issue, h]

end Sys2Proof.Machine
end

section
/-! Obligations of the encoding (spec/30_encoding.md). -/

namespace Sys2Proof.Machine

/-- Settles O13: the words by `decode_illegal_iff`, the effect by the error check of `issue`. -/
theorem illegalWords : Obligations.IllegalWords := by
  intro v
  constructor
  · rw [decode_illegal_iff, Ne, Ne, rsvdField_eq_zero_iff, clenField_eq_zero_iff, opField_toNat]
    tauto
  · rintro ⟨e, he⟩ s
    rw [accessReg_cmd_write_illegal he]
    exact ⟨fun h => whenErrorFree_of_none h _, fun h => whenErrorFree_of_ne h _⟩

end Sys2Proof.Machine
end

section
/-! Laws of the primitives of R100 to R107, bit by bit: a rotation, a choice, a majority and the four sigma functions. -/

namespace Sys2Proof.Machine

variable {n i : Nat} {x y z : Word}

/-! ### Rotation (R100, R101) -/

/-- Every bit of the word of ones is one; `0xFFFFFFFF` is `BitVec.allOnes 32`. -/
theorem getLsbD_ones (hi : i < 32) : (0xFFFFFFFF : Word).getLsbD i = true :=
  BitVec.getLsbD_allOnes.trans (decide_eq_true hi)

/-- The right shift brings the bits below the wrap, the left shift those above it. -/
theorem getLsbD_rotr (hpos : 1 ≤ n) (hn : n ≤ 31) (hi : i < 32) :
    (rotr x n).getLsbD i = x.getLsbD ((i + n) % 32) := by
  simp only [rotr, BitVec.getLsbD_or, BitVec.getLsbD_ushiftRight, BitVec.getLsbD_shiftLeft]
  by_cases hwrap : i + n < 32
  · have hlow : i < 32 - n := by omega
    simp [hlow, Nat.mod_eq_of_lt hwrap, Nat.add_comm n i]
  · have hhigh : ¬ i < 32 - n := by omega
    have hidx : (i + n) % 32 = i - (32 - n) := by omega
    simp [hhigh, hi, hidx, BitVec.getLsbD_of_ge x (n + i) (by omega)]

@[simp] theorem zero_rotr (n : Nat) : rotr 0 n = 0 := by
  simp [rotr]

/-- Rotating ones brings a one to every bit. -/
theorem ones_rotr (hpos : 1 ≤ n) (hn : n ≤ 31) : rotr 0xFFFFFFFF n = 0xFFFFFFFF := by
  refine BitVec.eq_of_getLsbD_eq fun i hi => ?_
  rw [getLsbD_rotr hpos hn hi, getLsbD_ones hi, getLsbD_ones (Nat.mod_lt _ (by decide))]

/-- The logical shift brings zeros in at the top (R101). -/
theorem getLsbD_logicalShift (x : Word) (n i : Nat) :
    (x >>> n).getLsbD i = (decide (i + n < 32) && x.getLsbD (i + n)) := by
  rw [BitVec.getLsbD_ushiftRight, Nat.add_comm]
  by_cases htop : i + n < 32
  · simp [htop]
  · simp [htop, BitVec.getLsbD_of_ge x (i + n) (by omega)]

/-! ### Choice and majority (R102, R103) -/

theorem getLsbD_ch (hi : i < 32) :
    (ch x y z).getLsbD i = if x.getLsbD i then y.getLsbD i else z.getLsbD i := by
  simp only [ch, BitVec.getLsbD_xor, BitVec.getLsbD_and, BitVec.getLsbD_not, hi]
  cases x.getLsbD i <;> simp

theorem getLsbD_maj :
    (maj x y z).getLsbD i =
      decide (2 ≤ (x.getLsbD i).toNat + (y.getLsbD i).toNat + (z.getLsbD i).toNat) := by
  simp only [maj, BitVec.getLsbD_xor, BitVec.getLsbD_and]
  generalize x.getLsbD i = a, y.getLsbD i = b, z.getLsbD i = c
  revert a b c
  decide

theorem ch_zero (y z : Word) : ch 0 y z = z := by
  refine BitVec.eq_of_getLsbD_eq fun i hi => ?_
  rw [getLsbD_ch hi, BitVec.ofNat_eq_ofNat, BitVec.getLsbD_zero, if_neg Bool.false_ne_true]

theorem ch_ones (y z : Word) : ch 0xFFFFFFFF y z = y := by
  refine BitVec.eq_of_getLsbD_eq fun i hi => ?_
  rw [getLsbD_ch hi, getLsbD_ones hi, if_pos rfl]

/-- The two products with the third operand cancel. -/
theorem maj_self (x z : Word) : maj x x z = x := by
  simp [maj]

theorem maj_zero_ones (z : Word) : maj 0 0xFFFFFFFF z = z := by
  refine BitVec.eq_of_getLsbD_eq fun i hi => ?_
  rw [getLsbD_maj, getLsbD_ones hi, BitVec.ofNat_eq_ofNat, BitVec.getLsbD_zero]
  cases z.getLsbD i <;> rfl

/-! ### Sigma functions (R104 to R107) -/

/-- Three rotations together: the bits of bsig0 and bsig1. -/
theorem getLsbD_xor_rotr_rotr_rotr {j k l : Nat} (hj : 1 ≤ j ∧ j ≤ 31) (hk : 1 ≤ k ∧ k ≤ 31) (hl : 1 ≤ l ∧ l ≤ 31)
    (hi : i < 32) :
    (rotr x j ^^^ rotr x k ^^^ rotr x l).getLsbD i =
      (x.getLsbD ((i + j) % 32) ^^ (x.getLsbD ((i + k) % 32) ^^ x.getLsbD ((i + l) % 32))) := by
  rw [BitVec.getLsbD_xor, BitVec.getLsbD_xor, getLsbD_rotr hj.1 hj.2 hi, getLsbD_rotr hk.1 hk.2 hi,
    getLsbD_rotr hl.1 hl.2 hi, Bool.xor_assoc]

/-- Two rotations and a logical shift together: the bits of ssig0 and ssig1. -/
theorem getLsbD_xor_rotr_rotr_shift {j k l : Nat} (hj : 1 ≤ j ∧ j ≤ 31) (hk : 1 ≤ k ∧ k ≤ 31) (hi : i < 32) :
    (rotr x j ^^^ rotr x k ^^^ (x >>> l)).getLsbD i =
      (x.getLsbD ((i + j) % 32) ^^ (x.getLsbD ((i + k) % 32) ^^ (decide (i + l < 32) && x.getLsbD (i + l)))) := by
  rw [BitVec.getLsbD_xor, BitVec.getLsbD_xor, getLsbD_rotr hj.1 hj.2 hi, getLsbD_rotr hk.1 hk.2 hi,
    getLsbD_logicalShift, Bool.xor_assoc]

theorem getLsbD_bsig0 (hi : i < 32) :
    (bsig0 x).getLsbD i =
      (x.getLsbD ((i + 2) % 32) ^^ (x.getLsbD ((i + 13) % 32) ^^ x.getLsbD ((i + 22) % 32))) :=
  getLsbD_xor_rotr_rotr_rotr (by decide) (by decide) (by decide) hi

theorem getLsbD_bsig1 (hi : i < 32) :
    (bsig1 x).getLsbD i =
      (x.getLsbD ((i + 6) % 32) ^^ (x.getLsbD ((i + 11) % 32) ^^ x.getLsbD ((i + 25) % 32))) :=
  getLsbD_xor_rotr_rotr_rotr (by decide) (by decide) (by decide) hi

theorem getLsbD_ssig0 (hi : i < 32) :
    (ssig0 x).getLsbD i =
      (x.getLsbD ((i + 7) % 32) ^^ (x.getLsbD ((i + 18) % 32) ^^ (decide (i + 3 < 32) && x.getLsbD (i + 3)))) :=
  getLsbD_xor_rotr_rotr_shift (by decide) (by decide) hi

theorem getLsbD_ssig1 (hi : i < 32) :
    (ssig1 x).getLsbD i =
      (x.getLsbD ((i + 17) % 32) ^^ (x.getLsbD ((i + 19) % 32) ^^ (decide (i + 10 < 32) && x.getLsbD (i + 10)))) :=
  getLsbD_xor_rotr_rotr_shift (by decide) (by decide) hi

end Sys2Proof.Machine
end

section
/-! Obligations of the primitives (spec/40_primitives_constants.md). -/

namespace Sys2Proof.Machine

/-- Settles O3, one function at a time; the examples by evaluation. -/
theorem rotateChooseMajorityBits : Obligations.RotateChooseMajorityBits :=
  ⟨fun _ _ _ hpos hn hi => getLsbD_rotr hpos hn hi, fun _ _ _ _ hi => getLsbD_ch hi, fun _ _ _ _ _ => getLsbD_maj,
    fun n hpos hn => ⟨zero_rotr n, ones_rotr hpos hn⟩, fun y z => ⟨ch_zero y z, ch_ones y z⟩,
    fun x z => ⟨maj_self x z, maj_zero_ones z⟩, by decide⟩

/-- Settles O4, one function at a time; the corner cases and examples by evaluation. -/
theorem sigmaBits : Obligations.SigmaBits :=
  ⟨fun _ _ hi => ⟨getLsbD_bsig0 hi, getLsbD_bsig1 hi, getLsbD_ssig0 hi, getLsbD_ssig1 hi⟩, by decide⟩

end Sys2Proof.Machine
end

section
/-! Laws of the operand reads and checks of PAD and FINAL, one per outcome in the order of the checks, and of the padded
blocks they leave (R24, R25, R140 to R144, R165). -/

namespace Sys2Proof.Machine

variable {s : State} {c : Nat} {l : BitVec 128}

/-! ### The word of a command (R81) -/

/-- The fields of a command word do not overlap, so joining them is or-ing them in place. -/
theorem encode_eq_or {i : Instr} (h : i.clen < 128) :
    encode i = i.opcode.setWidth 32 ||| (BitVec.ofNat 32 i.clen <<< 4) := by
  have hshift : i.clen <<< 4 < 2 ^ 32 := by
    rw [Nat.shiftLeft_eq]
    omega
  have hop : i.opcode.toNat < 2 ^ 32 := by omega
  refine BitVec.eq_of_toNat_eq ((BitVec.toNat_append ..).trans ?_)
  rw [BitVec.toNat_append, BitVec.toNat_or, BitVec.toNat_shiftLeft, BitVec.toNat_setWidth, BitVec.toNat_ofNat,
    BitVec.toNat_ofNat, Nat.mod_eq_of_lt h, Nat.mod_eq_of_lt (h.trans (by decide)), Nat.mod_eq_of_lt hshift,
    Nat.mod_eq_of_lt hop, Nat.lor_comm]
  simp

/-! ### Reading LEN and BLK -/

section
variable {k : BitVec 128 → Result}

theorem withLen_of_holds (h : s.holdsLen l) : withLen s k = k l := by
  simp [withLen, fetchLen_eq_ok_iff.2 (holdsLen_iff_words.1 h)]

/-- Byte `j` of LEN stands in word `j / 4`, so a LEN that holds a value lacks no byte. -/
theorem not_lacks_of_holdsLen (h : s.holdsLen l) : ¬ s.lacks lenBase 16 := by
  rintro ⟨j, hj, hnone⟩
  have hbyte := h (j / 4) (by omega) (j % 4) (Nat.mod_lt _ (by decide))
  rw [show 0x010 + 4 * (j / 4) + j % 4 = lenBase + j by unfold lenBase; omega, hnone] at hbyte
  exact absurd (List.getElem?_eq_none_iff.1 hbyte.symm) (Nat.not_le.2 (Nat.mod_lt _ (by decide)))

theorem withLen_of_lacks (h : s.lacks lenBase 16) : faultsUnwritten (withLen s k) := by
  unfold withLen
  split
  next hf =>
    obtain ⟨x, rfl⟩ := fetchLen_error_unwritten hf
    exact ⟨x, rfl⟩
  next hl => exact absurd h (not_lacks_of_holdsLen (holdsLen_iff_words.2 (fetchLen_eq_ok_iff.1 hl)))

end

section
variable {k : List Byte → Result}

theorem withBlk_of_holds {b : List Byte} (h : s.holdsBytes blkBase b) : withBlk s b.length k = k b := by
  simp [withBlk, fetchBlk, fetchBytes_of_holds h]

theorem withBlk_of_lacks (h : s.lacks blkBase c) : faultsUnwritten (withBlk s c k) := by
  obtain ⟨x, hx⟩ := fetchBytes_of_lacks h
  exact ⟨x, by simp [withBlk, fetchBlk, hx]⟩

end

/-! ### The checks on the operands -/

theorem unlessOverlong_of_lt (h : 64 < c) (k : Result) : unlessOverlong c s k = .next (s.raise .contract) := if_pos h

theorem unlessOverlong_of_le (h : c ≤ 64) (k : Result) : unlessOverlong c s k = k := if_neg (Nat.not_lt.2 h)

theorem unlessTooLarge_of_le (h : 2 ^ 64 ≤ l.toNat) (k : BitVec 64 → Result) :
    unlessTooLarge l s k = .next (s.raise .inputTooLarge) := if_pos h

theorem unlessTooLarge_of_lt (h : l.toNat < 2 ^ 64) (k : BitVec 64 → Result) :
    unlessTooLarge l s k = k (l.setWidth 64) := if_neg (Nat.not_le.2 h)

/-! ### What PAD and FINAL share (R144, R165) -/

/-- The checks and operand reads of PAD and FINAL in R248's order, then the rest of the command with the length and the
chunk. -/
def checkedChunk (c : Nat) (s : State) (k : BitVec 64 → List Byte → Result) : Result :=
  whenErrorFree s <| unlessReading s <| unlessOverlong c s <|
  withLen s fun l => unlessTooLarge l s fun l64 => withBlk s c (k l64)

theorem exec_pad (c : Nat) (s : State) :
    exec (.pad c) s = checkedChunk c s fun l64 chunk => .next (s.putPadding (pad chunk l64)) := rfl

section
variable {k : BitVec 64 → List Byte → Result}

theorem checkedChunk_of_error (he : s.err ≠ .none) : checkedChunk c s k = .next s := whenErrorFree_of_ne he _

theorem checkedChunk_of_reading (he : s.err = .none) (hd : s.drv = .read) :
    checkedChunk c s k = .next (s.raise .sequence) :=
  (whenErrorFree_of_none he _).trans (unlessReading_of_eq hd _)

variable (he : s.err = .none) (hd : s.drv ≠ .read)
include he hd

theorem checkedChunk_of_admitted :
    checkedChunk c s k = unlessOverlong c s (withLen s fun l => unlessTooLarge l s fun l64 => withBlk s c (k l64)) :=
  (whenErrorFree_of_none he _).trans (unlessReading_of_ne hd _)

theorem checkedChunk_of_overlong (hc : 64 < c) : checkedChunk c s k = .next (s.raise .contract) :=
  (checkedChunk_of_admitted he hd).trans (unlessOverlong_of_lt hc _)

variable (hc : c ≤ 64)
include hc

theorem checkedChunk_of_lacksLen (hl : s.lacks lenBase 16) : faultsUnwritten (checkedChunk c s k) := by
  rw [checkedChunk_of_admitted he hd, unlessOverlong_of_le hc]
  exact withLen_of_lacks hl

variable (hl : s.holdsLen l)
include hl

theorem checkedChunk_of_holdsLen : checkedChunk c s k = unlessTooLarge l s fun l64 => withBlk s c (k l64) := by
  rw [checkedChunk_of_admitted he hd, unlessOverlong_of_le hc, withLen_of_holds hl]

theorem checkedChunk_of_tooLarge (hbig : 2 ^ 64 ≤ l.toNat) : checkedChunk c s k = .next (s.raise .inputTooLarge) :=
  (checkedChunk_of_holdsLen he hd hc hl).trans (unlessTooLarge_of_le hbig _)

variable (hfit : l.toNat < 2 ^ 64)
include hfit

theorem checkedChunk_of_fits : checkedChunk c s k = withBlk s c (k (l.setWidth 64)) :=
  (checkedChunk_of_holdsLen he hd hc hl).trans (unlessTooLarge_of_lt hfit _)

theorem checkedChunk_of_lacksBlk (hb : s.lacks blkBase c) : faultsUnwritten (checkedChunk c s k) := by
  rw [checkedChunk_of_fits he hd hc hl hfit]
  exact withBlk_of_lacks hb

theorem checkedChunk_of_holdsBlk {chunk : List Byte} (hlen : chunk.length = c) (hb : s.holdsBytes blkBase chunk) :
    checkedChunk c s k = k (l.setWidth 64) chunk := by
  rw [checkedChunk_of_fits he hd hc hl hfit, ← hlen, withBlk_of_holds hb]

end

/-! ### The padded blocks in PADBUF (R143) -/

theorem pad_length_eq_or {chunk : List Byte} (h : chunk.length ≤ 64) (l : BitVec 64) :
    (pad chunk l).length = 64 ∨ (pad chunk l).length = 128 :=
  (pad_length_cases h l).imp And.right And.right

theorem ofBlocks_pad {chunk : List Byte} (h : chunk.length ≤ 64) (l : BitVec 64) :
    PadCount.ofBlocks ((pad chunk l).length / 64) = if chunk.length ≤ 55 then .one else .two := by
  obtain ⟨hc, hp⟩ | ⟨hc, hp⟩ := pad_length_cases h l
  · rw [hp, if_pos hc]
    rfl
  · rw [hp, if_neg (by omega)]
    rfl

end Sys2Proof.Machine
end

section
/-! Obligations of the padding constructor (spec/41_padding.md). -/

namespace Sys2Proof.Machine

/-- Settles O19, one outcome of `checkedChunk` per clause; the buffers by `putPadding_buffers`. -/
theorem padCommand : Obligations.PadCommand := by
  intro c s
  simp only [exec_pad]
  refine ⟨fun h => encode_eq_or (i := .pad c) h, checkedChunk_of_error, checkedChunk_of_reading,
    checkedChunk_of_overlong, checkedChunk_of_lacksLen, fun he hd hc l hl =>
    ⟨checkedChunk_of_tooLarge he hd hc hl, checkedChunk_of_lacksBlk he hd hc hl, fun hfit chunk hlen hb => ?_⟩⟩
  have hchunk : chunk.length ≤ 64 := hlen.trans_le hc
  obtain ⟨hblocks, hfill, hsame⟩ := putPadding_buffers s (pad_length_eq_or hchunk (l.setWidth 64))
  exact ⟨_, _, rfl, checkedChunk_of_holdsBlk he hd hc hl hfit hlen hb, hblocks, hfill, hlen ▸ ofBlocks_pad hchunk _,
    hsame, rfl⟩

end Sys2Proof.Machine
end

section
/-! Laws of the message schedule and of the rounds (R161, R162). -/

namespace Sys2Proof.Machine

variable {w : List Word} {t n : Nat}

/-! ### The message schedule (R161) -/

/-- The recurrence of R161 for W[t], on a schedule that holds the words before t. -/
def scheduleWordAt (w : List Word) (t : Nat) : Word :=
  ssig1 (w.getD (t - 2) 0) + w.getD (t - 7) 0 + ssig0 (w.getD (t - 15) 0) + w.getD (t - 16) 0

theorem nextScheduleWord_eq (w : List Word) : nextScheduleWord w = scheduleWordAt w w.length := rfl

theorem prefix_extendSchedule (n : Nat) (w : List Word) : w <+: extendSchedule n w := by
  induction n generalizing w with
  | zero => exact List.prefix_rfl
  | succ n ih => exact (List.prefix_append w _).trans (ih _)

/-- The recurrence looks at earlier words only, which stay when the schedule grows. -/
theorem scheduleWordAt_extendSchedule (hpos : 0 < t) (ht : t ≤ w.length) :
    scheduleWordAt (extendSchedule n w) t = scheduleWordAt w t := by
  obtain ⟨x, hx⟩ := prefix_extendSchedule n w
  have earlier {k : Nat} (hk : k < t) : (extendSchedule n w).getD k 0 = w.getD k 0 := by
    rw [← hx, List.getD_append _ _ _ _ (hk.trans_le ht)]
  unfold scheduleWordAt
  rw [earlier (by omega), earlier (by omega), earlier (by omega), earlier (by omega)]

theorem extendSchedule_getElem?_of_lt (ht : t < w.length) : (extendSchedule n w)[t]? = w[t]? := by
  rw [List.getElem?_eq_getElem ht]
  exact List.prefix_iff_getElem?.1 (prefix_extendSchedule n w) t ht

theorem extendSchedule_recurrence (hpos : 0 < w.length) (hle : w.length ≤ t) (ht : t < w.length + n) :
    (extendSchedule n w)[t]? = some (scheduleWordAt (extendSchedule n w) t) := by
  induction n generalizing w with
  | zero => omega
  | succ n ih =>
    have hlen : (w ++ [nextScheduleWord w]).length = w.length + 1 := List.length_append
    obtain rfl | hlt := hle.eq_or_lt
    · rw [scheduleWordAt_extendSchedule hpos le_rfl, ← nextScheduleWord_eq, extendSchedule,
        extendSchedule_getElem?_of_lt (by omega), List.getElem?_concat_length]
    · exact ih (by omega) (by omega) (by omega)

theorem parseBlock_getElem? (b : List Byte) (ht : t < 16) : (parseBlock b)[t]? = some (be32 b (4 * t)) := by
  simp [parseBlock, ht]

/-! ### The rounds (R162) -/

/-- The working variables before round `t` of `Compress(H, B)`. -/
def workingBefore (hs : HashState) (b : List Byte) (t : Nat) : Working := (Working.ofHash hs).rounds (schedule b) t

theorem workingBefore_zero (hs : HashState) (b : List Byte) : workingBefore hs b 0 = .ofHash hs := rfl

theorem workingBefore_succ (hs : HashState) (b : List Byte) (t : Nat) :
    workingBefore hs b (t + 1) = (workingBefore hs b t).round (roundConstant t) ((schedule b).getD t 0) := rfl

theorem compress_eq_addTo (hs : HashState) (b : List Byte) : compress hs b = (workingBefore hs b 64).addTo hs := rfl

end Sys2Proof.Machine
end

section
/-! Laws of the commands of R163 to R165: what INIT answers, COMPRESS past its checks, FINAL in terms of the checks it
shares with PAD. -/

namespace Sys2Proof.Machine

variable {s : State} {v : Word}

/-! ### INIT (R163) -/

theorem exec_init (s : State) :
    exec .init s = .next { s with
      hreg := initialHash, err := .none, drv := .idle, dv := false, padcnt := .zero, rem := 0 } := rfl

/-- With every field of STATUS clear the register reads 0 (R26 to R30). -/
theorem readReg_status_eq_zero (herr : s.err = .none) (hdrv : s.drv = .idle) (hdv : s.dv = false)
    (hpad : s.padcnt = .zero) (hbusy : s.busy = false) : readReg .status s = .ok 0 := by
  simp [readReg, statusRead, statusWord, herr, hdrv, hdv, hpad, hbusy, PadCount.blocks, DrvState.bits, ErrCode.bits]

/-- A word with INIT's opcode does not decode when a bit above the opcode is set (R85). -/
theorem decode_init_malformed (hop : opField v = 1) (hbits : clenField v ≠ 0 ∨ rsvdField v ≠ 0) :
    ∃ e, decode v = .error e := by
  rw [decode_illegal_iff, hop]
  exact hbits.elim (fun hclen => .inr (.inr ⟨by decide, hclen⟩)) .inl

theorem whenErrorFree_raised (e : ErrCode) (s : State) :
    whenErrorFree s (raised e s) = .next (if s.err = .none then s.raise e else s) :=
  (apply_ite Host.Outcome.next _ _ _).symm

/-! ### COMPRESS (R164) -/

/-- What COMPRESS does once its checks pass, with the block it read. -/
def State.compressBlk (s : State) (b : List Byte) : State :=
  ((s.setHash (compress s.hreg b)).setDv false).setDrv .idle

theorem exec_compress (s : State) :
    exec .compress s = whenErrorFree s (unlessReading s (withBlk s 64 fun b => .next (s.compressBlk b))) := rfl

theorem exec_compress_of_reading (he : s.err = .none) (hd : s.drv = .read) :
    exec .compress s = .next (s.raise .sequence) :=
  (whenErrorFree_of_none he _).trans (unlessReading_of_eq hd _)

theorem exec_compress_of_admitted (he : s.err = .none) (hd : s.drv ≠ .read) :
    exec .compress s = withBlk s 64 fun b => .next (s.compressBlk b) :=
  (whenErrorFree_of_none he _).trans (unlessReading_of_ne hd _)

/-! ### FINAL (R165) -/

theorem exec_final (c : Nat) (s : State) :
    exec (.final c) s = checkedChunk c s fun l64 chunk =>
      .next ((((s.setHash (compressBlocks s.hreg (pad chunk l64))).putPadding (pad chunk l64)).setDv false).setDrv
        .idle) := rfl

end Sys2Proof.Machine
end

section
/-! Obligations of the compression unit (spec/42_compression.md). -/

namespace Sys2Proof.Machine

/-- Settles O6: the block's words are the part of the schedule that is there before it grows, and the recurrence is
`extendSchedule_recurrence`. -/
theorem scheduleRecurrence : Obligations.ScheduleRecurrence := by
  intro b _
  have hparsed : (parseBlock b).length = 16 := parseBlock_length b
  exact ⟨schedule_length b,
    fun t ht => (extendSchedule_getElem?_of_lt (ht.trans_eq hparsed.symm)).trans (parseBlock_getElem? b ht),
    fun t hlow hhigh => extendSchedule_recurrence (by omega) (by omega) (by omega)⟩

/-- Settles O7: the sequences are the fields of `workingBefore`. -/
theorem compressIsSixtyFourRounds : Obligations.CompressIsSixtyFourRounds := by
  intro hs b
  refine ⟨fun t => (workingBefore hs b t).a, fun t => (workingBefore hs b t).b, fun t => (workingBefore hs b t).c,
    fun t => (workingBefore hs b t).d, fun t => (workingBefore hs b t).e, fun t => (workingBefore hs b t).f,
    fun t => (workingBefore hs b t).g, fun t => (workingBefore hs b t).h, ?start, fun t _ => ⟨_, _, rfl, rfl, ?round⟩,
    compress_eq_addTo hs b⟩
  case start => simp [workingBefore_zero, Working.ofHash]
  case round => simp [workingBefore_succ, Working.round]

/-- Settles O17: INIT by its answer, the malformed words by `decode_init_malformed`. -/
theorem initCommand : Obligations.InitCommand := by
  refine ⟨by decide, fun s => ⟨exec_init s, fun hbusy t ht => ?_, fun v hop hbits => ?_⟩⟩
  · cases (exec_init s).symm.trans ht
    exact readReg_status_eq_zero rfl rfl rfl rfl hbusy
  · obtain ⟨e, he⟩ := decode_init_malformed hop hbits
    rw [accessReg_cmd_write_illegal he, whenErrorFree_raised]

/-- Settles O18, one clause per check of COMPRESS, then the block it reads. -/
theorem compressCommand : Obligations.CompressCommand := by
  refine ⟨by decide, fun s => ⟨fun he => whenErrorFree_of_ne he _, exec_compress_of_reading, fun he hd hb => ?_,
    fun he hd b hlen hb => ?_⟩⟩
  · rw [exec_compress_of_admitted he hd]
    exact withBlk_of_lacks hb
  · rw [exec_compress_of_admitted he hd, ← hlen]
    exact withBlk_of_holds hb

/-- Settles O20, one outcome of `checkedChunk` per clause; the hash by `compressBlocks_pad`, the buffers by
`putPadding_buffers`. -/
theorem finalCommand : Obligations.FinalCommand := by
  intro c s
  simp only [exec_final]
  refine ⟨fun h => encode_eq_or (i := .final c) h, checkedChunk_of_error, checkedChunk_of_reading,
    checkedChunk_of_overlong, checkedChunk_of_lacksLen, fun he hd hc l hl =>
    ⟨checkedChunk_of_tooLarge he hd hc hl, checkedChunk_of_lacksBlk he hd hc hl, fun hfit chunk hlen hb => ?_⟩⟩
  have hchunk : chunk.length ≤ 64 := hlen.trans_le hc
  obtain ⟨hblocks, hfill, hsame⟩ := putPadding_buffers s (pad_length_eq_or hchunk (l.setWidth 64))
  exact ⟨_, _, rfl, checkedChunk_of_holdsBlk he hd hc hl hfit hlen hb, hlen ▸ compressBlocks_pad s.hreg _ hchunk,
    hblocks, hfill, hlen ▸ ofBlocks_pad hchunk _, rfl, rfl, hsame, rfl⟩

end Sys2Proof.Machine
end

section
/-! Laws of the driver's commands START and CHUNK, one per outcome in the order of the checks, and of the buffers the
last chunk leaves (R192 to R195). -/

namespace Sys2Proof.Machine

variable {s t : State} {c : Nat} {l : BitVec 128} {chunk p : List Byte}

/-! ### START (R192) -/

/-- What START does once its checks pass, with the length it read. -/
def State.beginStream (l64 : BitVec 64) (s : State) : State :=
  ((((s.setHash initialHash).setDlen l64).setRem (l64 >>> 3)).setDv false).setDrv .read

/-- START past its check of the range of LEN. -/
def startOfLength (s : State) (l64 : BitVec 64) : Result :=
  if l64.toNat % 8 ≠ 0 then raised .contract s else .next (s.beginStream l64)

theorem exec_start (s : State) :
    exec .start s = whenErrorFree s (unlessReading s (withLen s fun l => unlessTooLarge l s (startOfLength s))) := rfl

theorem exec_start_of_reading (he : s.err = .none) (hd : s.drv = .read) :
    exec .start s = .next (s.raise .sequence) := by
  rw [exec_start, whenErrorFree_of_none he, unlessReading_of_eq hd]

theorem setWidth_toNat_of_lt (hfit : l.toNat < 2 ^ 64) : (l.setWidth 64).toNat = l.toNat := by
  rw [BitVec.toNat_setWidth, Nat.mod_eq_of_lt hfit]

/-- REM = LEN / 8 and DLEN = LEN, as numbers: the narrowing to 64 bits and the shift lose nothing. -/
theorem State.beginStream_setWidth (hfit : l.toNat < 2 ^ 64) (s : State) :
    s.beginStream (l.setWidth 64) = { s with
      hreg := initialHash, dlen := BitVec.ofNat 64 l.toNat, rem := BitVec.ofNat 64 (l.toNat / 8), dv := false,
      drv := .read } := by
  have hdlen : l.setWidth 64 = BitVec.ofNat 64 l.toNat :=
    BitVec.eq_of_toNat_eq ((BitVec.toNat_setWidth ..).trans (BitVec.toNat_ofNat ..).symm)
  have hrem : l.setWidth 64 >>> 3 = BitVec.ofNat 64 (l.toNat / 8) := by
    refine BitVec.eq_of_toNat_eq ?_
    rw [BitVec.toNat_ushiftRight, setWidth_toNat_of_lt hfit, BitVec.toNat_ofNat, Nat.shiftRight_eq_div_pow,
      Nat.mod_eq_of_lt (by omega)]
  rw [← hrem, ← hdlen]
  rfl

section
variable (he : s.err = .none) (hd : s.drv ≠ .read)
include he hd

theorem exec_start_of_admitted :
    exec .start s = withLen s fun l => unlessTooLarge l s (startOfLength s) := by
  rw [exec_start, whenErrorFree_of_none he, unlessReading_of_ne hd]

theorem exec_start_of_lacksLen (hl : s.lacks lenBase 16) : faultsUnwritten (exec .start s) := by
  rw [exec_start_of_admitted he hd]
  exact withLen_of_lacks hl

variable (hl : s.holdsLen l)
include hl

theorem exec_start_of_holdsLen : exec .start s = unlessTooLarge l s (startOfLength s) := by
  rw [exec_start_of_admitted he hd, withLen_of_holds hl]

theorem exec_start_of_tooLarge (hbig : 2 ^ 64 ≤ l.toNat) : exec .start s = .next (s.raise .inputTooLarge) :=
  (exec_start_of_holdsLen he hd hl).trans (unlessTooLarge_of_le hbig _)

variable (hfit : l.toNat < 2 ^ 64)
include hfit

theorem exec_start_of_fits : exec .start s = startOfLength s (l.setWidth 64) :=
  (exec_start_of_holdsLen he hd hl).trans (unlessTooLarge_of_lt hfit _)

theorem exec_start_of_partByte (hbits : l.toNat % 8 ≠ 0) : exec .start s = .next (s.raise .contract) := by
  rw [exec_start_of_fits he hd hl hfit, startOfLength, setWidth_toNat_of_lt hfit, if_pos hbits]
  rfl

theorem exec_start_of_wholeBytes (hbits : l.toNat % 8 = 0) :
    exec .start s = .next (s.beginStream (l.setWidth 64)) := by
  rw [exec_start_of_fits he hd hl hfit, startOfLength, setWidth_toNat_of_lt hfit, if_neg (not_not_intro hbits)]

end

/-! ### Buffers apart from a write -/

theorem holdsBytes_of_same {a b n : Nat} {bs : List Byte} (h : s.holdsBytes a bs) (hsame : s.sameBytesOutside t b n)
    (happart : a + bs.length ≤ b ∨ b + n ≤ a) : t.holdsBytes a bs := fun j hj => by
  rw [hsame (a + j) (by omega), h j hj]

/-! ### CHUNK (R193 to R195) -/

/-- What the last chunk does, with its padded blocks (R195). -/
def State.finishStream (p : List Byte) (s : State) : State :=
  ((((s.setHash (compressBlocks s.hreg p)).putPadding p).setRem 0).putDigest (compressBlocks s.hreg p)).setDrv .done

theorem chunkLast_eq (c : Nat) (s : State) :
    chunkLast c s = withBlk s c fun chunk => .next (s.finishStream (pad chunk s.dlen)) := rfl

/-- PADBUF ends where DIGEST begins, so the digest leaves the padded blocks. -/
theorem finishStream_buffers (s : State) (hp : p.length = 64 ∨ p.length = 128) :
    (s.finishStream p).holdsBytes 0x080 p ∧
      (∀ j, p.length ≤ j → j < 128 → (s.finishStream p).mem.read (0x080 + j) = some 0) ∧
      (s.finishStream p).holdsDigest (s.finishStream p).hreg ∧
      s.sameBytesOutside (s.finishStream p) 0x080 192 := by
  obtain ⟨hblocks, hfill, hpad⟩ := putPadding_buffers s hp
  obtain ⟨hdigest, hdig⟩ := putDigest_buffers (s.putPadding p) (compressBlocks s.hreg p)
  refine ⟨holdsBytes_of_same hblocks hdig (by omega), fun j hlow hhigh => ?_, hdigest, fun x hx => ?_⟩
  · exact (hdig (0x080 + j) (by omega)).trans (hfill j hlow hhigh)
  · exact (hdig x (by omega)).trans (hpad x (by omega))

section
variable (he : s.err = .none)
include he

theorem exec_chunk_of_not_reading (hd : s.drv ≠ .read) : exec (.chunk c) s = .next (s.raise .sequence) :=
  (whenErrorFree_of_none he _).trans (if_pos hd)

variable (hd : s.drv = .read)
include hd

theorem exec_chunk_of_reading :
    exec (.chunk c) s =
      if c < bytesDue s then raised .ioError s
      else if bytesDue s < c then raised .contract s
      else if 64 < s.rem.toNat then chunkDirect s
      else chunkLast c s :=
  (whenErrorFree_of_none he _).trans (if_neg (not_not_intro hd))

theorem exec_chunk_of_short (hc : c < bytesDue s) : exec (.chunk c) s = .next (s.raise .ioError) :=
  (exec_chunk_of_reading he hd).trans (if_pos hc)

theorem exec_chunk_of_long (hc : bytesDue s < c) : exec (.chunk c) s = .next (s.raise .contract) := by
  rw [exec_chunk_of_reading he hd, if_neg (by omega), if_pos hc]
  rfl

variable (hc : c = bytesDue s)
include hc

theorem exec_chunk_of_due :
    exec (.chunk c) s = if 64 < s.rem.toNat then chunkDirect s else chunkLast c s := by
  rw [exec_chunk_of_reading he hd, if_neg (by omega), if_neg (by omega)]

/-- Beyond 64 bytes due, the block read is the `c` = 64 bytes of the chunk. -/
theorem exec_chunk_of_direct (hrem : 64 < s.rem.toNat) :
    exec (.chunk c) s = withBlk s c fun b => .next ((s.setHash (compress s.hreg b)).setRem (s.rem - 64)) := by
  have hfull : c = 64 := hc.trans (Nat.min_eq_left hrem.le)
  rw [exec_chunk_of_due he hd hc, if_pos hrem, hfull]
  rfl

theorem exec_chunk_of_last (hrem : s.rem.toNat ≤ 64) :
    exec (.chunk c) s = withBlk s c fun chunk => .next (s.finishStream (pad chunk s.dlen)) := by
  rw [exec_chunk_of_due he hd hc, if_neg hrem.not_gt, chunkLast_eq]

theorem exec_chunk_of_lacksBlk (hb : s.lacks blkBase c) : faultsUnwritten (exec (.chunk c) s) := by
  obtain hrem | hrem := Nat.lt_or_ge 64 s.rem.toNat
  · rw [exec_chunk_of_direct he hd hc hrem]
    exact withBlk_of_lacks hb
  · rw [exec_chunk_of_last he hd hc hrem]
    exact withBlk_of_lacks hb

variable (hlen : chunk.length = c) (hb : s.holdsBytes blkBase chunk)
include hlen hb

theorem exec_chunk_of_directBlk (hrem : 64 < s.rem.toNat) :
    exec (.chunk c) s =
      .next { s with hreg := compress s.hreg chunk, rem := BitVec.ofNat 64 (s.rem.toNat - 64) } := by
  have hsub : BitVec.ofNat 64 (s.rem.toNat - 64) = s.rem - 64 := by bv_omega
  rw [exec_chunk_of_direct he hd hc hrem, ← hlen, withBlk_of_holds hb, hsub]
  rfl

theorem exec_chunk_of_lastBlk (hrem : s.rem.toNat ≤ 64) :
    exec (.chunk c) s = .next (s.finishStream (pad chunk s.dlen)) := by
  rw [exec_chunk_of_last he hd hc hrem, ← hlen, withBlk_of_holds hb]

end

end Sys2Proof.Machine
end

section
/-! Obligations of the block driver (spec/43_block_driver.md). -/

namespace Sys2Proof.Machine

/-- Settles O22, one check of START per clause; the values of DLEN and REM by `beginStream_setWidth`. -/
theorem startCommand : Obligations.StartCommand := by
  refine ⟨by decide, fun s => ⟨fun he => whenErrorFree_of_ne he _, exec_start_of_reading, exec_start_of_lacksLen,
    fun he hd l hl => ⟨exec_start_of_tooLarge he hd hl, exec_start_of_partByte he hd hl, fun hfit hbits => ?_⟩⟩⟩
  rw [exec_start_of_wholeBytes he hd hl hfit hbits, State.beginStream_setWidth hfit]
  rfl

/-- Settles O23, one check of CHUNK per clause; the last chunk's hash by `compressBlocks_pad`, its buffers by
`finishStream_buffers`. -/
theorem chunkCommand : Obligations.ChunkCommand := by
  intro c s
  refine ⟨fun h => encode_eq_or (i := .chunk c) h, fun he => whenErrorFree_of_ne he _, exec_chunk_of_not_reading,
    exec_chunk_of_short, exec_chunk_of_long, fun he hd hc => ⟨exec_chunk_of_lacksBlk he hd hc, fun chunk hlen hb =>
    ⟨exec_chunk_of_directBlk he hd hc hlen hb, fun hrem => ?_⟩⟩⟩
  have hchunk : chunk.length ≤ 64 := by omega
  obtain ⟨hblocks, hfill, hdigest, hsame⟩ := finishStream_buffers s (pad_length_eq_or hchunk s.dlen)
  exact ⟨_, _, rfl, exec_chunk_of_lastBlk he hd hc hlen hb hrem, hlen ▸ compressBlocks_pad s.hreg _ hchunk, hblocks,
    hfill, hlen ▸ ofBlocks_pad hchunk _, rfl, hdigest, rfl, rfl, hsame, rfl⟩

end Sys2Proof.Machine
end

section
/-! Laws of the hexadecimal rendering: its digits, the position of each, and that no two hash states share a rendering
(R220). -/

namespace Sys2Proof.Machine

/-! ### One digit -/

theorem hexDigit_toNat (v : BitVec 4) :
    (hexDigit v).toNat = if v.toNat ≤ 9 then 0x30 + v.toNat else 0x61 + (v.toNat - 10) := by
  revert v
  decide

/-- The codes of the digits 0 to 9 lie below those of a to f, and each range counts up with the value. -/
theorem hexDigit_injective : Function.Injective hexDigit := fun v v' h => by
  have hcode : (hexDigit v).toNat = (hexDigit v').toNat := congrArg BitVec.toNat h
  rw [hexDigit_toNat, hexDigit_toNat] at hcode
  apply BitVec.eq_of_toNat_eq
  split at hcode <;> split at hcode <;> omega

/-! ### The digits of a word -/

/-- `v[31 - 4j : 28 - 4j]`, nibble `j` of a word counted from the most significant (R220). -/
def nibble (v : Word) (j : Nat) : BitVec 4 := v.extractLsb' (28 - 4 * j) 4

theorem nibble_toNat (v : Word) {j : Nat} (hj : j < 8) : (nibble v j).toNat = v.toNat / 16 ^ (7 - j) % 16 := by
  have hshift : 2 ^ (28 - 4 * j) = 16 ^ (7 - j) := by
    rw [show 28 - 4 * j = 4 * (7 - j) by omega, Nat.pow_mul]
  rw [nibble, BitVec.extractLsb'_toNat, Nat.shiftRight_eq_div_pow, hshift]

/-- Bit `i` of a word is bit `i % 4` of its nibble `7 - i / 4`. -/
theorem eq_of_nibble_eq {v v' : Word} (h : ∀ j < 8, nibble v j = nibble v' j) : v = v' := by
  have bit (w : Word) {i : Nat} (hi : i < 32) : (nibble w (7 - i / 4)).getLsbD (i % 4) = w.getLsbD i := by
    simp [nibble, Nat.mod_lt, show 28 - 4 * (7 - i / 4) + i % 4 = i by omega]
  refine BitVec.eq_of_getLsbD_eq fun i hi => ?_
  rw [← bit v hi, ← bit v' hi, h _ (by omega)]

theorem hexWord_getElem? (v : Word) {j : Nat} (hj : j < 8) : (hexWord v)[j]? = some (hexDigit (nibble v j)) := by
  simp [hexWord, nibble, hj]

/-! ### The digits of a hash state -/

theorem flatMap_hexWord_getElem? (ws : List Word) (i : Nat) {j : Nat} (hj : j < 8) :
    (ws.flatMap hexWord)[8 * i + j]? = ws[i]?.bind fun w => (hexWord w)[j]? := by
  induction ws generalizing i with
  | nil => rfl
  | cons w ws ih =>
    have hlen : (hexWord w).length = 8 := hexWord_length w
    rw [List.flatMap_cons]
    cases i with
    | zero =>
      rw [List.getElem?_append_left (by omega), Nat.mul_zero, Nat.zero_add]
      rfl
    | succ i =>
      rw [List.getElem?_append_right (by omega), show 8 * (i + 1) + j - (hexWord w).length = 8 * i + j by omega, ih]
      rfl

theorem hex_getElem? (h : HashState) (i : Fin 8) {j : Nat} (hj : j < 8) :
    (hex h)[8 * (i : Nat) + j]? = some (hexDigit (nibble h[i] j)) := by
  rw [hex, flatMap_hexWord_getElem? _ _ hj, ← hexWord_getElem? _ hj]
  simp

theorem hex_injective : Function.Injective hex := fun h h' heq => by
  refine Vector.ext fun i hi => eq_of_nibble_eq fun j hj => hexDigit_injective <| Option.some.inj ?_
  exact (hex_getElem? h ⟨i, hi⟩ hj).symm.trans ((congrArg (·[8 * i + j]?) heq).trans (hex_getElem? h' ⟨i, hi⟩ hj))

end Sys2Proof.Machine
end

section
/-! Laws of FORMAT, one per outcome in the order of the checks (R221). -/

namespace Sys2Proof.Machine

variable {s : State}

theorem exec_format (s : State) :
    exec .format s = whenErrorFree s (unlessReading s (.next (s.putDigest s.hreg))) := rfl

theorem exec_format_of_error (he : s.err ≠ .none) : exec .format s = .next s := whenErrorFree_of_ne he _

theorem exec_format_of_reading (he : s.err = .none) (hd : s.drv = .read) :
    exec .format s = .next (s.raise .sequence) := by
  rw [exec_format, whenErrorFree_of_none he, unlessReading_of_eq hd]

theorem exec_format_of_admitted (he : s.err = .none) (hd : s.drv ≠ .read) :
    exec .format s = .next (s.putDigest s.hreg) := by
  rw [exec_format, whenErrorFree_of_none he, unlessReading_of_ne hd]

end Sys2Proof.Machine
end

section
/-! Obligations of the digest formatter (spec/44_digest_formatter.md). -/

namespace Sys2Proof.Machine

/-- Settles O10: each character by `hex_getElem?`, as a digit of its nibble's value; distinctness by `hex_injective`. -/
theorem hexDigits : Obligations.HexDigits := by
  refine ⟨fun h => ⟨hex_length h, fun i j hj => ⟨_, rfl, ?_⟩⟩, hex_injective, by decide, by decide, by decide⟩
  rw [hex_getElem? h i hj, Option.map_some, hexDigit_toNat, nibble_toNat _ hj]

/-- Settles O21, one check of FORMAT per clause. What it writes leaves HREG and the checks as they were, so a second
FORMAT is admitted and renders the same hash state. -/
theorem formatCommand : Obligations.FormatCommand := by
  refine ⟨by decide, fun s => ⟨exec_format_of_error, exec_format_of_reading, fun he hd => ?_⟩⟩
  have hsecond : exec .format (s.putDigest s.hreg) = .next ((s.putDigest s.hreg).putDigest s.hreg) :=
    exec_format_of_admitted (s := s.putDigest s.hreg) he hd
  obtain ⟨hdigest, hsame⟩ := putDigest_buffers s s.hreg
  obtain ⟨hdigest', -⟩ := putDigest_buffers (s.putDigest s.hreg) s.hreg
  exact ⟨_, exec_format_of_admitted he hd, hdigest, rfl, hsame, rfl, _, hsecond, hdigest'⟩

end Sys2Proof.Machine
end

section
/-! Laws of the errors a command raises: one condition for each code, in R248's order, and that an access which sets ERR
writes nothing else (R241 to R245). -/

namespace Sys2Proof.Machine

variable {s t : State} {e : ErrCode} {i : Instr} {c : Nat}

/-! ### Raising an error (R241) -/

theorem State.raise_eq_iff {e' : ErrCode} : s.raise e = s.raise e' ↔ e = e' :=
  ⟨congrArg State.err, congrArg s.raise⟩

theorem Declined.raises (he : s.err = .none) (h : Declined s t) : t.err ≠ .none ∧ t = s.raise t.err := by
  obtain ⟨he', -⟩ | ⟨-, e, hne, rfl⟩ := h
  · exact absurd he he'
  · exact ⟨hne, rfl⟩

/-- A command other than INIT that completes with another effect than an error leaves ERR as it is. -/
theorem exec_next_declined_or_err (hi : i ≠ .init) (h : exec i s = .next t) : Declined s t ∨ t.err = s.err := by
  cases i with
  | init => exact absurd rfl hi
  | compress => exact (execCompress_next h).imp_right fun ⟨_, _, _, _, ht⟩ => ht ▸ rfl
  | pad c => exact (execPad_next h).imp_right fun ⟨_, _, _, _, _, _, _, _, ht⟩ => ht ▸ rfl
  | final c => exact (execFinal_next h).imp_right fun ⟨_, _, _, _, _, _, _, _, ht⟩ => ht ▸ rfl
  | format => exact (execFormat_next h).imp_right fun ⟨_, _, ht⟩ => ht ▸ rfl
  | start => exact (execStart_next h).imp_right fun ⟨_, _, _, _, _, _, ht⟩ => ht ▸ rfl
  | chunk c =>
    refine (execChunk_next h).imp_right ?_
    rintro ⟨-, -, -, ⟨-, _, -, rfl⟩ | ⟨-, _, -, rfl⟩⟩ <;> rfl

/-- The ways an access can change ERR: a word written to CMD, or a write of HREG in READ. -/
theorem accessReg_next_err {r : WindowReg} {k : AccessKind} (h : accessReg r k s = .next t) :
    (r = .cmd ∧ ∃ v, k = .write v ∧ issue v s = .next t) ∨ (s.drv = .read ∧ t = s.raise .sequence) ∨
      t.err = s.err := by
  cases k with
  | read =>
    simp only [accessReg] at h
    split at h
    · cases h
    · cases h
      exact .inr (.inr rfl)
  | write v =>
    cases r with
    | cmd => exact .inl ⟨rfl, v, rfl, h⟩
    | hreg j => exact .inr ((writeHreg_next h).imp_right fun ⟨_, ht⟩ => ht ▸ rfl)
    | len j | blkw j =>
      cases h
      exact .inr (.inr rfl)
    | status | padw j | digw j | rem0 | rem1 => cases h

/-- An error is precise (R241): a command that sets ERR writes only the error state. -/
theorem exec_precise (he : s.err = .none) (h : exec i s = .next t) (ht : t.err ≠ .none) : t = s.raise t.err := by
  by_cases hi : i = .init
  · subst hi
    cases h
    exact absurd rfl ht
  · obtain h | h := exec_next_declined_or_err hi h
    · exact (h.raises he).2
    · exact absurd (h.trans he) ht

/-! ### The checks of a command -/

theorem next_ne_raise (ht : t.err = .none) (he : e ≠ .none) : (.next t : Result) ≠ .next (s.raise e) := by
  intro h
  cases h
  exact he ht

/-- One check: the error it names where it fails, the rest of the command where it passes. -/
theorem check_raises_iff {p : Prop} [Decidable p] {e' : ErrCode} {k : Result} :
    (if p then raised e' s else k) = .next (s.raise e) ↔ (p ∧ e = e') ∨ (¬ p ∧ k = .next (s.raise e)) := by
  split
  next hp => simp [hp, State.raise_eq_iff]
  next hp => simp [hp]

/-- READ is the only check of COMPRESS, of FORMAT and of an HREG write. -/
theorem unlessReading_raises_iff {k : Result} (hk : k ≠ .next (s.raise e)) :
    unlessReading s k = .next (s.raise e) ↔ s.drv = .read ∧ e = .sequence := by
  rw [unlessReading, check_raises_iff, or_iff_left fun h => hk h.2]

theorem withLen_next_iff {k : BitVec 128 → Result} : withLen s k = .next t ↔ ∃ l, s.holdsLen l ∧ k l = .next t := by
  constructor
  · intro h
    obtain ⟨l, hl, hk⟩ := withLen_next h
    exact ⟨l, holdsLen_iff_words.2 (fetchLen_eq_ok_iff.1 hl), hk⟩
  · rintro ⟨l, hl, hk⟩
    rw [withLen_of_holds hl, hk]

theorem withBlk_ne_next {k : List Byte → Result} (hk : ∀ b, k b ≠ .next t) : withBlk s c k ≠ .next t := by
  intro h
  obtain ⟨b, -, hb⟩ := withBlk_next h
  exact hk b hb

/-- LEN is 2^64 or more exactly when one of its upper 64 bits is set (R243). -/
theorem le_toNat_iff_extract_ne_zero (l : BitVec 128) : 2 ^ 64 ≤ l.toNat ↔ l.extractLsb' 64 64 ≠ 0 := by
  have hlt := l.isLt
  rw [Ne, BitVec.toNat_eq, BitVec.extractLsb'_toNat, Nat.shiftRight_eq_div_pow, BitVec.ofNat_eq_ofNat,
    BitVec.toNat_zero]
  omega

/-- The narrowing to 64 bits keeps the part of a byte. -/
theorem setWidth_toNat_mod_eight (l : BitVec 128) : (l.setWidth 64).toNat % 8 = l.toNat % 8 := by
  rw [BitVec.toNat_setWidth]
  omega

/-! ### What each command raises (R242 to R245) -/

/-- The errors of a command in a state with ERR = 0: the driver state first, then the command's own checks in R248's
order. -/
def Raises (s : State) (e : ErrCode) : Instr → Prop
  | .init => False
  | .compress | .format => s.drv = .read ∧ e = .sequence
  | .pad c | .final c =>
    (s.drv = .read ∧ e = .sequence) ∨ (s.drv ≠ .read ∧ ((64 < c ∧ e = .contract) ∨
      (c ≤ 64 ∧ ∃ l, s.holdsLen l ∧ 2 ^ 64 ≤ l.toNat ∧ e = .inputTooLarge)))
  | .start =>
    (s.drv = .read ∧ e = .sequence) ∨ (s.drv ≠ .read ∧ ∃ l, s.holdsLen l ∧
      ((2 ^ 64 ≤ l.toNat ∧ e = .inputTooLarge) ∨ (l.toNat < 2 ^ 64 ∧ l.toNat % 8 ≠ 0 ∧ e = .contract)))
  | .chunk c =>
    (s.drv ≠ .read ∧ e = .sequence) ∨ (s.drv = .read ∧ ((c < bytesDue s ∧ e = .ioError) ∨
      (bytesDue s < c ∧ e = .contract)))

section
variable (he : s.err = .none)
include he

theorem checkedChunk_raises_iff {k : BitVec 64 → List Byte → Result} (hk : ∀ l b, k l b ≠ .next (s.raise e)) :
    checkedChunk c s k = .next (s.raise e) ↔ Raises s e (.pad c) := by
  have hblk : ∀ l, withBlk s c (k l) ≠ .next (s.raise e) := fun l => withBlk_ne_next (hk l)
  simp only [checkedChunk, whenErrorFree_of_none he, unlessReading, unlessOverlong, unlessTooLarge, check_raises_iff,
    withLen_next_iff, hblk, Raises, and_false, or_false, not_lt, ne_eq]

theorem exec_start_raises_iff (hne : e ≠ .none) : exec .start s = .next (s.raise e) ↔ Raises s e .start := by
  have hbegin : ∀ l, (.next (s.beginStream l) : Result) ≠ .next (s.raise e) := fun l => next_ne_raise he hne
  simp only [exec_start, whenErrorFree_of_none he, unlessReading, unlessTooLarge, startOfLength, check_raises_iff,
    withLen_next_iff, hbegin, setWidth_toNat_mod_eight, Raises, and_false, or_false, not_le, ne_eq]

theorem exec_chunk_raises_iff (hne : e ≠ .none) : exec (.chunk c) s = .next (s.raise e) ↔ Raises s e (.chunk c) := by
  -- a chunk of the length due raises nothing
  have hdone : (if 64 < s.rem.toNat then chunkDirect s else chunkLast c s) ≠ .next (s.raise e) := by
    split <;> exact withBlk_ne_next fun _ => next_ne_raise he hne
  have hlong : ¬ c < bytesDue s ∧ bytesDue s < c ∧ e = .contract ↔ bytesDue s < c ∧ e = .contract :=
    and_iff_right_of_imp fun h => not_lt.2 h.1.le
  simp only [exec, execChunk, whenErrorFree_of_none he, check_raises_iff, hdone, hlong, Raises, and_false, or_false,
    ne_eq, not_not]

theorem writeHreg_raises_sequence_iff (j : Fin 8) (v : Word) :
    writeHreg j v s = .next (s.raise .sequence) ↔ s.drv = .read := by
  rw [writeHreg, unlessReading_raises_iff, and_iff_left rfl]
  exact next_ne_raise he (by decide)

/-- In a state with ERR = 0 a command ends in the error `e` exactly where R242 to R245 say. -/
theorem exec_raises_iff (hne : e ≠ .none) (i : Instr) : exec i s = .next (s.raise e) ↔ Raises s e i := by
  have hnext {t : State} (ht : t.err = .none) : (.next t : Result) ≠ .next (s.raise e) := next_ne_raise ht hne
  cases i with
  | init => exact iff_of_false (hnext rfl) id
  | compress =>
    rw [exec_compress, whenErrorFree_of_none he]
    exact unlessReading_raises_iff (withBlk_ne_next fun _ => hnext he)
  | pad c => exact checkedChunk_raises_iff he fun _ _ => hnext he
  | final c => exact checkedChunk_raises_iff he fun _ _ => hnext he
  | format =>
    rw [exec_format, whenErrorFree_of_none he]
    exact unlessReading_raises_iff (hnext he)
  | start => exact exec_start_raises_iff he hne
  | chunk c => exact exec_chunk_raises_iff he hne

end

end Sys2Proof.Machine
end

section
/-! Laws of the error state: what is ignored in it, and what ends it (R240). -/

namespace Sys2Proof.Machine

variable {s t : State} {v : Word}

theorem exec_of_error {i : Instr} (he : s.err ≠ .none) (hi : i ≠ .init) : exec i s = .next s := by
  cases i with
  | init => exact absurd rfl hi
  | compress | pad c | final c | format | start | chunk c => exact whenErrorFree_of_ne he _

theorem decodeFixed_eq_ok {i j : Instr} (h : decodeFixed i v = .ok j) : j = i := by
  unfold decodeFixed at h
  split at h <;> cases h
  rfl

theorem opField_of_decode_init (h : decode v = .ok .init) : (opField v).toNat = 1 := by
  unfold decode at h
  split at h
  · cases h
  · split at h
    case h_1 hop => exact hop
    case h_2 | h_5 | h_6 => cases decodeFixed_eq_ok h
    case h_3 | h_4 | h_7 | h_8 => cases h

/-- INIT has one word (R83). -/
theorem eq_one_of_decode_init (h : decode v = .ok .init) : v = 0x00000001 := by
  have hlegal : ¬ ∃ d, decode v = .error d := by
    rintro ⟨d, hd⟩
    cases h.symm.trans hd
  have hop := opField_of_decode_init h
  rw [decode_illegal_iff, hop, Ne, Ne, rsvdField_eq_zero_iff, clenField_eq_zero_iff] at hlegal
  rw [opField_toNat] at hop
  obtain ⟨hrsvd, hclen⟩ : v.toNat / 2048 = 0 ∧ v.toNat / 16 % 128 = 0 := by simpa using hlegal
  refine BitVec.eq_of_toNat_eq (?_ : v.toNat = 1)
  omega

theorem accessReg_cmd_write_of_error (he : s.err ≠ .none) (hv : v ≠ 0x00000001) :
    accessReg .cmd (.write v) s = .next s := by
  cases hd : decode v with
  | ok i =>
    rw [accessReg_cmd_write hd]
    exact exec_of_error he (by rintro rfl; exact hv (eq_one_of_decode_init hd))
  | error d => rw [accessReg_cmd_write_illegal hd, whenErrorFree_of_ne he]

/-- No register but STATUS shows the error: its read does not look at ERR and DRV. -/
theorem readReg_of_errorFree {r : WindowReg} (hr : r ≠ .status) (s : State) (e : ErrCode) (d : DrvState) :
    readReg r s = readReg r { s with err := e, drv := d } := by
  cases r with
  | status => exact absurd rfl hr
  | cmd | len j | hreg j | blkw j | padw j | digw j | rem0 | rem1 => rfl

theorem step_reset {rest : List Input} (h : s.inputs = .reset :: rest) :
    step s = .next (s.setInputs rest).platformReset := by
  simp [step, h, serve]

/-- Out of READ an HREG write raises nothing, so INIT's word is the one access that ends the error. -/
theorem accessReg_changes_err (he : s.err ≠ .none) (hd : s.drv = .error) {r : WindowReg} {k : AccessKind}
    (h : accessReg r k s = .next t) (ht : t.err ≠ s.err) : r = .cmd ∧ k = .write 0x00000001 := by
  obtain ⟨rfl, v, rfl, -⟩ | ⟨hread, -⟩ | hsame := accessReg_next_err h
  · by_cases hv : v = 0x00000001
    · exact ⟨rfl, by rw [hv]⟩
    · rw [accessReg_cmd_write_of_error he hv] at h
      cases h
      exact absurd rfl ht
  · rw [hd] at hread
    cases hread
  · exact absurd hsame ht

end Sys2Proof.Machine
end

section
/-! Obligations of the errors (spec/60_exceptions.md). -/

namespace Sys2Proof.Machine

/-- Settles O24: an access that sets ERR is a command or an HREG write in READ (`accessReg_next_err`), and each of them
raises. -/
theorem errorsArePrecise : Obligations.ErrorsArePrecise := by
  refine ⟨fun _ _ => rfl, ⟨rfl, rfl, rfl, rfl, rfl, rfl⟩, fun r k s t h he ht => ?_⟩
  obtain ⟨-, v, -, hissue⟩ | ⟨-, rfl⟩ | hsame := accessReg_next_err h
  · obtain ⟨i, -, hexec⟩ | ⟨-, hdecl⟩ := issue_next hissue
    · exact exec_precise he hexec ht
    · exact (hdecl.raises he).2
  · rfl
  · exact absurd (hsame.trans he) ht

/-- Settles O25, one law of the error state per clause; LEN and BLK by the words just stored. -/
theorem errorStateIgnoresCommands : Obligations.ErrorStateIgnoresCommands := by
  intro s he
  refine ⟨fun v => accessReg_cmd_write_of_error he, ⟨_, rfl, rfl⟩, fun r hr => readReg_of_errorFree hr s _ _,
    ⟨_, rfl⟩, fun i v => ⟨_, accessReg_len_write i v s, fetchWord_storeWord s _ v⟩,
    fun i v => ⟨_, accessReg_blkw_write i v s, fetchWord_storeWord s _ v⟩, fun hd i v => ?hreg,
    fun rest hrest => ⟨_, step_reset hrest, rfl⟩, fun hd r k t => accessReg_changes_err he hd⟩
  case hreg =>
    have hread : s.drv ≠ .read := by simp [hd]
    exact ⟨_, writeHreg_of_ne_read hread i v, by simp⟩

/-- Settles O27: the table is SEQUENCE's line of `Raises` for each command; a COMPRESS or FINAL that is not declined
writes DRV. -/
theorem sequenceTable : Obligations.SequenceTable := by
  refine ⟨fun s i => exec_of_error, fun s he _ => ⟨fun i => ?table, writeHreg_raises_sequence_iff he,
    fun i t hi h ht => ?idle⟩⟩
  case table =>
    rw [exec_raises_iff he (by decide)]
    cases i <;> simp [Raises]
  case idle =>
    have hdecl : ¬ Declined s t := fun hdecl => (hdecl.raises he).1 ht
    obtain rfl | ⟨c, rfl⟩ := hi
    · obtain ⟨_, _, _, _, rfl⟩ := (execCompress_next h).resolve_left hdecl
      rfl
    · obtain ⟨_, _, _, _, _, _, _, _, rfl⟩ := (execFinal_next h).resolve_left hdecl
      rfl

/-- Settles O28: each code's causes are its lines of `Raises` for each command. -/
theorem errorCauses : Obligations.ErrorCauses := by
  refine ⟨le_toNat_iff_extract_ne_zero, fun s i he => ?_⟩
  rw [exec_raises_iff he (by decide), exec_raises_iff he (by decide), exec_raises_iff he (by decide)]
  cases i <;> simp [Raises, bytesDue]

end Sys2Proof.Machine
end

section
/-! Laws of the platform reset: the states it leaves, and what STATUS shows in them (R270). -/

namespace Sys2Proof.Machine

variable {s : State}

theorem reset_eq_platformReset : State.reset = State.reset.platformReset := rfl

/-- Whatever a step that serves a reset leaves is a platform reset of some state. -/
theorem eq_platformReset_of_step_reset {s₀ : State} {rest : List Input} (hin : s₀.inputs = .reset :: rest)
    (h : step s₀ = .next s) : s = (s₀.setInputs rest).platformReset := by
  rw [step_reset hin] at h
  cases h
  rfl

theorem readReg_status_platformReset (s : State) : readReg .status s.platformReset = .ok 0 :=
  readReg_status_eq_zero (State.platformReset_err s) (State.platformReset_drv s) (State.platformReset_dv s)
    (State.platformReset_padcnt s) (State.platformReset_busy s)

theorem read_mem_platformReset (s : State) (a : Nat) : s.platformReset.mem.read a = none := rfl

end Sys2Proof.Machine
end

section
/-! Obligations of the reset (spec/70_reset_and_hazards.md). -/

namespace Sys2Proof.Machine

/-- Settles O1: the state after reset and the one a served reset leaves are both platform resets of some state, and that
fixes every register of R20. -/
theorem resetState : Obligations.ResetState := by
  refine ⟨fun s hs => ?registers, fun s₀ rest hin => ⟨_, step_reset hin⟩⟩
  case registers =>
    obtain ⟨s₀, rfl⟩ : ∃ s₀ : State, s = s₀.platformReset := by
      obtain rfl | ⟨s₀, rest, hin, hstep⟩ := hs
      · exact ⟨_, reset_eq_platformReset⟩
      · exact ⟨_, eq_platformReset_of_step_reset hin hstep⟩
    exact ⟨State.platformReset_hreg s₀, State.platformReset_err s₀, State.platformReset_drv s₀,
      State.platformReset_dv s₀, State.platformReset_padcnt s₀, State.platformReset_busy s₀,
      State.platformReset_rem s₀, State.platformReset_dlen s₀, read_mem_platformReset s₀,
      readReg_status_platformReset s₀⟩

end Sys2Proof.Machine
end

section
/-! Laws of the decoder: which words decode to a command, and which words a row of the opcode table covers (R81 to
R86). -/

namespace Sys2Proof.Machine

variable {v : Word} {i j : Instr}

/-! ### A word and its fields (R81) -/

/-- Joining bit vectors adds the left one above the right one. -/
theorem toNat_append_eq_add {m n : Nat} (x : BitVec m) (y : BitVec n) :
    (x ++ y).toNat = x.toNat * 2 ^ n + y.toNat := by
  rw [BitVec.toNat_append, ← Nat.shiftLeft_add_eq_or_of_lt y.isLt, Nat.shiftLeft_eq]

/-- A word is its three fields, RSVD first. -/
theorem fields_join (v : Word) : rsvdField v ++ clenField v ++ opField v = v := by
  have hlt := v.isLt
  refine BitVec.eq_of_toNat_eq ((toNat_append_eq_add ..).trans ?_)
  rw [toNat_append_eq_add, rsvdField_toNat, clenField_toNat, opField_toNat]
  omega

theorem encode_fields (i : Instr) :
    opField (encode i) = i.opcode ∧ clenField (encode i) = BitVec.ofNat 7 i.clen ∧ rsvdField (encode i) = 0 :=
  Laws.EncodedFields.fields_append _ _

theorem wellFormed_iff : i.wellFormed = true ↔ i.clen < 128 := by
  cases i <;> simp [Instr.wellFormed, Instr.clen]

/-! ### Which words decode (R83 to R85) -/

theorem decodeFixed_eq_ok_iff : decodeFixed i v = .ok j ↔ clenField v = 0 ∧ j = i := by
  constructor
  · intro h
    refine ⟨?_, decodeFixed_eq_ok h⟩
    unfold decodeFixed at h
    split at h
    · assumption
    · cases h
  · rintro ⟨hclen, rfl⟩
    simp [decodeFixed, hclen]

/-- A word decodes to the command whose opcode and operand are its fields OP and CLEN, when RSVD = 0: one case per line
of `decode`. -/
theorem decode_eq_ok_iff :
    decode v = .ok i ↔ rsvdField v = 0 ∧ opField v = i.opcode ∧ (clenField v).toNat = i.clen := by
  have hzero : clenField v = 0 ↔ (clenField v).toNat = 0 := BitVec.toNat_eq
  constructor
  · intro h
    unfold decode at h
    split at h
    · cases h
    · refine ⟨not_not.1 ‹_›, ?_⟩
      split at h
      case h_1 hop | h_2 hop | h_5 hop | h_6 hop =>
        obtain ⟨hclen, rfl⟩ := decodeFixed_eq_ok_iff.1 h
        exact ⟨BitVec.eq_of_toNat_eq hop, hzero.1 hclen⟩
      case h_3 hop | h_4 hop | h_7 hop =>
        cases h
        exact ⟨BitVec.eq_of_toNat_eq hop, rfl⟩
      case h_8 => cases h
  · rintro ⟨hrsvd, hop, hclen⟩
    cases i with
    | init | compress | format | start =>
      simp [decode, hrsvd, hop, Instr.opcode, decodeFixed, hzero.2 hclen]
    | pad c | final c | chunk c =>
      obtain rfl : (clenField v).toNat = c := hclen
      simp [decode, hrsvd, hop, Instr.opcode]

theorem decode_encode (h : i.wellFormed = true) : decode (encode i) = .ok i := by
  obtain ⟨hop, hclen, hrsvd⟩ := encode_fields i
  refine decode_eq_ok_iff.2 ⟨hrsvd, hop, ?_⟩
  rw [hclen, BitVec.toNat_ofNat, Nat.mod_eq_of_lt (wellFormed_iff.1 h)]

theorem wellFormed_of_decode (h : decode v = .ok i) : i.wellFormed = true := by
  obtain ⟨-, -, hclen⟩ := decode_eq_ok_iff.1 h
  exact wellFormed_iff.2 (hclen ▸ (clenField v).isLt)

/-- No bit of a word that decodes is dropped: the command gives back each of its fields. -/
theorem encode_of_decode (h : decode v = .ok i) : encode i = v := by
  obtain ⟨hrsvd, hop, hclen⟩ := decode_eq_ok_iff.1 h
  rw [encode, ← hclen, ← hop, BitVec.ofNat_toNat, BitVec.setWidth_eq, ← hrsvd]
  exact fields_join v

theorem decode_eq_ok_iff_encode (hi : i.wellFormed = true) : decode v = .ok i ↔ v = encode i :=
  ⟨fun h => (encode_of_decode h).symm, fun h => h ▸ decode_encode hi⟩

/-! ### The rows of the opcode table (R83) -/

/-- The mask of the rows with an operand clears CLEN. -/
theorem and_operandMask (v : Word) : v &&& 0xFFFFF80F = rsvdField v ++ (0 : BitVec 7) ++ opField v := by
  have hmask : (0xFFFFF80F : Word) = BitVec.allOnes 21 ++ (0 : BitVec 7) ++ BitVec.allOnes 4 := by decide
  conv_lhs => rw [← fields_join v]
  refine (congrArg _ hmask).trans (BitVec.and_append.trans ?_)
  rw [BitVec.and_append, BitVec.and_allOnes, BitVec.and_allOnes]
  simp

/-- A row with an operand covers the words with its opcode and RSVD = 0. -/
theorem and_operandMask_eq_iff (o : BitVec 4) :
    v &&& 0xFFFFF80F = o.setWidth 32 ↔ rsvdField v = 0 ∧ opField v = o := by
  have hjoin : (rsvdField v ++ (0 : BitVec 7) ++ opField v).toNat = (rsvdField v).toNat * 2048 + (opField v).toNat := by
    refine (toNat_append_eq_add ..).trans ?_
    rw [toNat_append_eq_add, BitVec.ofNat_eq_ofNat, BitVec.toNat_zero]
    omega
  have ho : (o.setWidth 32).toNat = o.toNat := by
    rw [BitVec.toNat_setWidth]
    omega
  rw [and_operandMask, BitVec.toNat_eq, hjoin, ho, BitVec.toNat_eq, BitVec.toNat_eq, BitVec.ofNat_eq_ofNat,
    BitVec.toNat_zero]
  omega

/-- A row without operand covers the one word of its command. -/
theorem covers_fixed_iff (hi : i.wellFormed = true) (name : String) :
    OpcodeRow.covers ⟨name, encode i, 0xFFFFFFFF⟩ v = true ↔ decode v = .ok i := by
  have hand : v &&& 0xFFFFFFFF = v := BitVec.and_allOnes
  rw [OpcodeRow.covers, beq_iff_eq, decode_eq_ok_iff_encode hi, hand]

/-- A row with an operand covers the words that decode to its command with some operand. -/
theorem covers_operand_iff (f : Nat → Instr) (o : BitVec 4) (hop : ∀ c, (f c).opcode = o) (hclen : ∀ c, (f c).clen = c)
    (name : String) :
    OpcodeRow.covers ⟨name, o.setWidth 32, 0xFFFFF80F⟩ v = true ↔ ∃ c, decode v = .ok (f c) := by
  rw [OpcodeRow.covers, beq_iff_eq, and_operandMask_eq_iff]
  simp [decode_eq_ok_iff, hop, hclen]

/-- The table's row of a command. -/
def rowOf (i : Instr) : OpcodeRow :=
  ⟨i.mnemonic, i.opcode.setWidth 32, match i with
    | .init | .compress | .format | .start => 0xFFFFFFFF
    | .pad _ | .final _ | .chunk _ => 0xFFFFF80F⟩

theorem row_mem_opcodeTable (i : Instr) : rowOf i ∈ opcodeTable := by
  cases i <;> simp [opcodeTable, rowOf, Instr.mnemonic, Instr.opcode]

theorem row_covers (h : decode v = .ok i) : (rowOf i).covers v = true := by
  cases i with
  | init | compress | format | start => exact (covers_fixed_iff rfl _).2 h
  | pad c => exact (covers_operand_iff .pad 3 (fun _ => rfl) (fun _ => rfl) _).2 ⟨c, h⟩
  | final c => exact (covers_operand_iff .final 4 (fun _ => rfl) (fun _ => rfl) _).2 ⟨c, h⟩
  | chunk c => exact (covers_operand_iff .chunk 7 (fun _ => rfl) (fun _ => rfl) _).2 ⟨c, h⟩

theorem decodes_of_covers {r : OpcodeRow} (hr : r ∈ opcodeTable) (h : r.covers v = true) :
    ∃ i, decode v = .ok i ∧ rowOf i = r := by
  simp only [opcodeTable, List.mem_cons, List.not_mem_nil, or_false] at hr
  obtain rfl | rfl | rfl | rfl | rfl | rfl | rfl := hr
  · exact ⟨_, (covers_fixed_iff (i := .init) rfl _).1 h, rfl⟩
  · exact ⟨_, (covers_fixed_iff (i := .compress) rfl _).1 h, rfl⟩
  · obtain ⟨c, hc⟩ := (covers_operand_iff .pad 3 (fun _ => rfl) (fun _ => rfl) _).1 h
    exact ⟨_, hc, rfl⟩
  · obtain ⟨c, hc⟩ := (covers_operand_iff .final 4 (fun _ => rfl) (fun _ => rfl) _).1 h
    exact ⟨_, hc, rfl⟩
  · exact ⟨_, (covers_fixed_iff (i := .format) rfl _).1 h, rfl⟩
  · exact ⟨_, (covers_fixed_iff (i := .start) rfl _).1 h, rfl⟩
  · obtain ⟨c, hc⟩ := (covers_operand_iff .chunk 7 (fun _ => rfl) (fun _ => rfl) _).1 h
    exact ⟨_, hc, rfl⟩

end Sys2Proof.Machine
end

section
/-! Obligations of the decoder and the opcode table (spec/30_encoding.md). -/

namespace Sys2Proof.Machine

/-- Settles O12: both directions read the three fields of the word (`decode_eq_ok_iff`, `fields_join`). -/
theorem encodeDecodeAgree : Obligations.EncodeDecodeAgree :=
  ⟨fun _ => decode_encode, fun _ _ h => ⟨wellFormed_of_decode h, encode_of_decode h⟩⟩

/-- Settles O14: a row that covers a word is the row of the command the word decodes to, so it is the only one. -/
theorem decodeMatchesOpcodeTable : Obligations.DecodeMatchesOpcodeTable := by
  intro v
  have hrow {i : Instr} {r : OpcodeRow} (hi : decode v = .ok i) (hr : r ∈ opcodeTable) (hc : r.covers v = true) :
      rowOf i = r := by
    obtain ⟨j, hj, rfl⟩ := decodes_of_covers hr hc
    cases hi.symm.trans hj
    rfl
  refine ⟨⟨fun ⟨i, hi⟩ => ⟨_, row_mem_opcodeTable i, row_covers hi⟩, fun ⟨r, hr, hc⟩ => ?_⟩,
    fun i r hi hr hc => (congrArg OpcodeRow.mnemonic (hrow hi hr hc)).symm, fun r hr r' hr' hc hc' => ?_⟩
  · obtain ⟨i, hi, -⟩ := decodes_of_covers hr hc
    exact ⟨i, hi⟩
  · obtain ⟨i, hi, rfl⟩ := decodes_of_covers hr hc
    exact hrow hi hr' hc'

/-- Settles O15, by evaluating the decoder on each word. -/
theorem commandWords : Obligations.CommandWords := by
  unfold Obligations.CommandWords
  decide

end Sys2Proof.Machine
end

section
/-! Laws of the invariant of the machine: it holds after a reset, and each update a command or an access makes keeps it
(R27 to R33). -/

namespace Sys2Proof.Machine

variable {s t : State} {e : ErrCode} {p : List Byte}

/-! ### Where it starts, and what it does not look at -/

theorem inv_platformReset (s : State) : s.platformReset.Inv := by
  constructor <;> simp [Memory.wf, Memory.inBuffers]

/-- The invariant speaks of the registers only, not of what the model keeps beside them. -/
theorem State.Inv.of_registers (h : s.Inv)
    (ht : t = { s with inputs := t.inputs, reads := t.reads, owner := t.owner, freeReads := t.freeReads }) : t.Inv := by
  rw [ht]
  exact { h with }

/-! ### Errors (R241) -/

theorem State.Inv.raise (h : s.Inv) (he : e ≠ .none) : (s.raise e).Inv :=
  { h with
    errorMatches := by simp [he]
    digestValid := by simp
    readingInvalid := by simp
    remIdle := by simp
    remReading := by simp
    donePadded := by simp }

theorem State.Inv.declined (h : s.Inv) (hd : Declined s t) : t.Inv := by
  obtain ⟨-, rfl⟩ | ⟨-, e, he, rfl⟩ := hd
  · exact h
  · exact h.raise he

/-! ### Bytes stored in the buffers -/

/-- LEN and BLK lie below PADBUF and DIGEST, of which the invariant speaks. -/
theorem State.Inv.store_operand (h : s.Inv) {a : Nat} {bs : List Byte}
    (hbuf : ∀ x, a ≤ x → x < a + bs.length → isBufferByte x) (hlow : a + bs.length ≤ 0x080) : (s.store a bs).Inv := by
  have hsame : ∀ x, 0x080 ≤ x → (s.store a bs).mem.read x = s.mem.read x :=
    fun x hx => store_same s rfl x (.inr (hlow.trans hx))
  exact
    { h with
      memWf := Memory.writeBytes_wf h.memWf _ _
      memInBuffers := Memory.writeBytes_inBuffers h.memInBuffers hbuf
      digestValid := fun hv => (h.digestValid hv).imp_right fun hdig =>
        holdsBytes_of_same hdig (store_same s rfl) (.inr (by omega))
      padWritten := fun hp j hj => hsame (0x080 + j) (by omega) ▸ h.padWritten hp j hj
      padTail := fun hp j hlo hj => (hsame (0x080 + j) (by omega)).trans (h.padTail hp j hlo hj) }

theorem ofBlocks_ne_zero (hp : p.length = 64 ∨ p.length = 128) : PadCount.ofBlocks (p.length / 64) ≠ .zero := by
  obtain hp | hp := hp <;> simp [hp, PadCount.ofBlocks]

theorem length_of_ofBlocks_eq_one (hp : p.length = 64 ∨ p.length = 128)
    (h : PadCount.ofBlocks (p.length / 64) = .one) : p.length = 64 := by
  obtain hp | hp := hp
  · exact hp
  · simp [hp, PadCount.ofBlocks] at h

/-- The padded blocks and the zeros after them fill PADBUF, and DIGEST lies beyond (R31). -/
theorem State.Inv.putPadding (h : s.Inv) (hp : p.length = 64 ∨ p.length = 128) : (s.putPadding p).Inv := by
  obtain ⟨hblocks, hfill, hsame⟩ := putPadding_buffers s hp
  have hlen := putPadding_fill_length hp
  exact
    { h with
      memWf := Memory.writeBytes_wf h.memWf _ _
      memInBuffers := Memory.writeBytes_inBuffers h.memInBuffers fun x hlo hhi => by
        simp only [padBase, hlen] at hlo hhi
        exact .inr ⟨by omega, by omega⟩
      digestValid := fun hv => (h.digestValid hv).imp_right fun hdig =>
        holdsBytes_of_same hdig hsame (.inr (by omega))
      padWritten := fun _ j hj => by
        obtain hin | hout := Nat.lt_or_ge j p.length
        · rw [hblocks j hin, List.getElem?_eq_getElem hin]
          exact Option.some_ne_none _
        · rw [hfill j hout hj]
          exact Option.some_ne_none _
      padTail := fun hone j hlo hj => hfill j ((length_of_ofBlocks_eq_one hp hone).trans_le hlo) hj
      donePadded := fun _ => ofBlocks_ne_zero hp }

/-- DIGEST lies beyond PADBUF, and holds the rendering that DV = 1 promises (R28). -/
theorem State.Inv.putDigest (h : s.Inv) (he : s.err = .none) (hd : s.drv ≠ .read) : (s.putDigest s.hreg).Inv := by
  obtain ⟨hdig, hsame⟩ := putDigest_buffers s s.hreg
  have hpad : ∀ j < 128, (s.putDigest s.hreg).mem.read (0x080 + j) = s.mem.read (0x080 + j) :=
    fun j hj => hsame _ (.inl (by omega))
  exact
    { h with
      memWf := Memory.writeBytes_wf h.memWf _ _
      memInBuffers := Memory.writeBytes_inBuffers h.memInBuffers fun x hlo hhi => by
        simp only [digBase, hex_length] at hlo hhi
        exact .inr ⟨by omega, by omega⟩
      digestValid := fun _ => ⟨he, hdig⟩
      readingInvalid := fun hr => absurd hr hd
      padWritten := fun hp j hj => hpad j hj ▸ h.padWritten hp j hj
      padTail := fun hp j hlo hj => (hpad j hj).trans (h.padTail hp j hlo hj) }

/-! ### The hash state and the driver -/

theorem State.Inv.err_eq_none (h : s.Inv) (hd : s.drv ≠ .error) : s.err = .none := by
  by_contra he
  exact hd (h.errorMatches.2 he)

/-- A new hash state is kept with DV = 0 (R28). -/
theorem State.Inv.setHash_invalid (h : s.Inv) (x : HashState) : ((s.setHash x).setDv false).Inv :=
  { h with
    digestValid := by simp
    readingInvalid := by simp }

/-- Without an error the driver is in IDLE or DONE when it is not in READ (R27). -/
theorem idle_or_done (hinv : s.drv = .error ↔ s.err ≠ .none) (he : s.err = .none) (hd : s.drv ≠ .read) :
    s.drv = .idle ∨ s.drv = .done := by
  cases hs : s.drv with
  | idle => exact .inl rfl
  | done => exact .inr rfl
  | read => exact absurd hs hd
  | error => exact absurd he (hinv.1 hs)

/-- Back to IDLE from IDLE or DONE, where no bytes are due. -/
theorem State.Inv.setDrv_idle (h : s.Inv) (he : s.err = .none) (hd : s.drv ≠ .read) : (s.setDrv .idle).Inv :=
  { h with
    errorMatches := by simp [he]
    readingInvalid := by simp
    remIdle := fun _ => h.remIdle (idle_or_done h.errorMatches he hd)
    remReading := by simp
    donePadded := by simp }

theorem State.Inv.exec_init (h : s.Inv) (ht : exec .init s = .next t) : t.Inv := by
  cases ht
  exact
    { h with
      errorMatches := by simp
      digestValid := by simp
      readingInvalid := by simp
      remBounded := by simp
      remIdle := by simp
      remReading := by simp
      padWritten := by simp
      padTail := by simp
      donePadded := by simp }

/-- At the start of a stream of whole bytes all of them are due (R192). -/
theorem State.Inv.beginStream (h : s.Inv) (he : s.err = .none) {l : BitVec 64} (hl : l.toNat % 8 = 0) :
    (s.beginStream l).Inv := by
  have hrem : (s.beginStream l).rem.toNat = l.toNat / 8 := by
    show (l >>> 3).toNat = _
    rw [BitVec.toNat_ushiftRight, Nat.shiftRight_eq_div_pow]
  have hlt := l.isLt
  exact
    { h with
      errorMatches := iff_of_false nofun (not_not_intro he)
      digestValid := nofun
      readingInvalid := fun _ => rfl
      remBounded := by omega
      remIdle := nofun
      remReading := fun _ => ⟨hl, 0, by rw [hrem]; exact (Nat.zero_add _).symm⟩
      donePadded := nofun }

/-- A direct block takes 64 of the bytes due (R194). -/
theorem State.Inv.takeBlock (h : s.Inv) (hd : s.drv = .read) (hrem : 64 < s.rem.toNat) (x : HashState) :
    ((s.setHash x).setRem (s.rem - 64)).Inv := by
  have hsub : (s.rem - 64).toNat = s.rem.toNat - 64 := by bv_omega
  have hbound := h.remBounded
  obtain ⟨hbits, q, hq⟩ := h.remReading hd
  exact
    { h with
      digestValid := fun hv => absurd ((h.readingInvalid hd).symm.trans hv) nofun
      remBounded := by
        simp only [State.setRem_rem]
        omega
      remIdle := by simp [hd]
      remReading := fun _ => ⟨hbits, q + 1, by
        simp only [State.setRem_rem, State.setRem_dlen, State.setHash_dlen]
        omega⟩ }

/-- The end of a stream, once its padded blocks stand in PADBUF (R195). -/
theorem State.Inv.endStream (h : s.Inv) (hd : s.drv = .read) (hp : s.padcnt ≠ .zero) (x : HashState) :
    (((s.setHash x).setRem 0).setDrv .done).Inv :=
  { h with
    errorMatches := by simp [h.err_eq_none (by simp [hd])]
    digestValid := fun hv => absurd ((h.readingInvalid hd).symm.trans hv) nofun
    readingInvalid := by simp
    remBounded := by simp
    remIdle := by simp
    remReading := by simp
    donePadded := fun _ => hp }

/-- The last chunk: its padded blocks, the end of the stream, its digest. The updates touch different fields, so their
order does not matter. -/
theorem State.Inv.finishStream (h : s.Inv) (hd : s.drv = .read) (hp : p.length = 64 ∨ p.length = 128) :
    (s.finishStream p).Inv :=
  ((h.putPadding hp).endStream hd (ofBlocks_ne_zero hp) (compressBlocks s.hreg p)).putDigest
    (h.err_eq_none (by simp [hd])) (by simp)

/-! ### Commands, accesses and steps -/

/-- The last chunk is at most a block, so its padding is one or two. -/
theorem pad_due_length {c : Nat} {chunk : List Byte} (hb : fetchBlk s.mem c = .ok chunk) (hc : c = bytesDue s)
    (l : BitVec 64) : (pad chunk l).length = 64 ∨ (pad chunk l).length = 128 :=
  pad_length_eq_or ((fetchBlk_length hb).trans_le (hc.trans_le (Nat.min_le_left ..))) l

theorem exec_keeps_inv {i : Instr} (h : s.Inv) (ht : exec i s = .next t) : t.Inv := by
  cases i with
  | init => exact h.exec_init ht
  | compress =>
    obtain hdecl | ⟨he, hd, b, -, rfl⟩ := execCompress_next ht
    · exact h.declined hdecl
    · exact (h.setHash_invalid _).setDrv_idle he hd
  | pad c =>
    obtain hdecl | ⟨-, -, hc, l, chunk, -, -, hb, rfl⟩ := execPad_next ht
    · exact h.declined hdecl
    · exact h.putPadding (pad_length_eq_or (fetchBlk_length hb ▸ hc) _)
  | final c =>
    obtain hdecl | ⟨he, hd, hc, l, chunk, -, -, hb, rfl⟩ := execFinal_next ht
    · exact h.declined hdecl
    · have hpadded := h.putPadding (pad_length_eq_or (fetchBlk_length hb ▸ hc) (l.setWidth 64))
      exact (hpadded.setHash_invalid _).setDrv_idle he hd
  | format =>
    obtain hdecl | ⟨he, hd, rfl⟩ := execFormat_next ht
    · exact h.declined hdecl
    · exact h.putDigest he hd
  | start =>
    obtain hdecl | ⟨he, -, l, -, -, hl, rfl⟩ := execStart_next ht
    · exact h.declined hdecl
    · exact h.beginStream he hl
  | chunk c =>
    obtain hdecl | ⟨-, hd, hc, ⟨hrem, b, -, rfl⟩ | ⟨hrem, chunk, hb, rfl⟩⟩ := execChunk_next ht
    · exact h.declined hdecl
    · exact h.takeBlock hd hrem _
    · exact h.finishStream hd (pad_due_length hb hc s.dlen)

theorem issue_keeps_inv {v : Word} (h : s.Inv) (ht : issue v s = .next t) : t.Inv := by
  obtain ⟨i, -, hexec⟩ | ⟨-, hdecl⟩ := issue_next ht
  · exact exec_keeps_inv h hexec
  · exact h.declined hdecl

theorem writeReg_keeps_inv {r : WindowReg} {v : Word} (h : s.Inv) (ht : writeReg r v s = .next t) : t.Inv := by
  cases r with
  | cmd => exact issue_keeps_inv h ht
  | len i =>
    cases ht
    exact h.store_operand (by simp only [WindowReg.offset, lenBase, wordBytes_length]; omega)
      (by simp only [WindowReg.offset, lenBase, wordBytes_length]; omega)
  | blkw i =>
    cases ht
    exact h.store_operand (by simp only [WindowReg.offset, blkBase, wordBytes_length]; omega)
      (by simp only [WindowReg.offset, blkBase, wordBytes_length]; omega)
  | hreg i =>
    obtain ⟨-, rfl⟩ | ⟨-, rfl⟩ := writeHreg_next ht
    · exact h.raise (by decide)
    · exact h.setHash_invalid _
  | status | padw i | digw i | rem0 | rem1 => cases ht

theorem accessReg_keeps_inv {r : WindowReg} {k : AccessKind} (h : s.Inv) (ht : accessReg r k s = .next t) : t.Inv := by
  cases k with
  | read =>
    simp only [accessReg] at ht
    split at ht
    · cases ht
    · cases ht
      exact h.of_registers rfl
  | write v => exact writeReg_keeps_inv h ht

theorem step_keeps_inv (h : s.Inv) (ht : step s = .next t) : t.Inv := by
  obtain ⟨-, rfl⟩ | ⟨a, rest, -, hacc⟩ | ⟨rest, -, rfl⟩ := step_next ht
  · exact h
  · obtain ⟨-, -, -, -, -, r, -, hreg⟩ := hostAccess_next hacc
    exact accessReg_keeps_inv (h.of_registers rfl) hreg
  · exact inv_platformReset _

end Sys2Proof.Machine
end

section
/-! Obligations of the invariant (spec/10_state.md). -/

namespace Sys2Proof.Machine

/-- Settles O44: a step is nothing, an access (`accessReg_keeps_inv`) or a reset. -/
theorem stepKeepsInvariant : Obligations.StepKeepsInvariant := fun _ _ => step_keeps_inv

/-- Settles O45: the state after reset is a platform reset. -/
theorem resetMeetsInvariant : Obligations.ResetMeetsInvariant := inv_platformReset State.reset

end Sys2Proof.Machine
end

section
/-! Laws of the constants: the first 64 primes, and the roots of them that K and H0 are the fractions of (R110 to
R112). -/

namespace Sys2Proof.Machine

/-- The primes up to 311. -/
def firstPrimes : List Nat :=
  [2, 3, 5, 7, 11, 13, 17, 19, 23, 29, 31, 37, 41, 43, 47, 53] ++
  [59, 61, 67, 71, 73, 79, 83, 89, 97, 101, 103, 107, 109, 113, 127, 131] ++
  [137, 139, 149, 151, 157, 163, 167, 173, 179, 181, 191, 193, 197, 199, 211, 223] ++
  [227, 229, 233, 239, 241, 251, 257, 263, 269, 271, 277, 281, 283, 293, 307, 311]

theorem firstPrimes_eq_filter : firstPrimes = (List.range 312).filter fun x => decide x.Prime := by decide +kernel

/-- The whole part of the `e`-th root of a number below 18^e: how many of 1, 2, ..., 17 have an `e`-th power up to
it. -/
def wholeRoot (e p : Nat) : Nat := (List.range 17).countP fun n => decide ((n + 1) ^ e ≤ p)

/-- The `e`-th root of `p` scaled by 2^32, when `k` is the first 32 bits of its fraction. -/
def scaledRoot (e p : Nat) (k : Word) : Nat := wholeRoot e p * 2 ^ 32 + k.toNat

theorem scaledRoot_mod (e p : Nat) (k : Word) : scaledRoot e p k % 2 ^ 32 = k.toNat := by
  rw [scaledRoot, Nat.mul_add_mod', Nat.mod_eq_of_lt k.isLt]

/-- The integer inequalities that make `r` the floor of the `e`-th root of `n`. -/
abbrev IsFloorRoot (e n r : Nat) : Prop := r ^ e ≤ n ∧ n < (r + 1) ^ e

theorem roundConstant_isFloorRoot : ∀ t < 64,
    IsFloorRoot 3 (firstPrimes.getD t 0 * 2 ^ 96) (scaledRoot 3 (firstPrimes.getD t 0) (roundConstant t)) := by
  decide +kernel

theorem initialHash_isFloorRoot : ∀ i : Fin 8,
    IsFloorRoot 2 (firstPrimes.getD i 0 * 2 ^ 64) (scaledRoot 2 (firstPrimes.getD i 0) initialHash[i]) := by
  decide +kernel

end Sys2Proof.Machine
end

section
/-! Obligations of the constants (spec/40_primitives_constants.md). -/

namespace Sys2Proof.Machine

/-- Settles O5: the roots are the whole parts of the primes' roots, with the table's word as the fraction. -/
theorem constantsFromPrimeRoots : Obligations.ConstantsFromPrimeRoots := by
  refine ⟨firstPrimes, firstPrimes_eq_filter, rfl, rfl, fun t ht => ?_, fun i => ?_⟩
  · obtain ⟨hle, hlt⟩ := roundConstant_isFloorRoot t ht
    exact ⟨_, hle, hlt, (scaledRoot_mod ..).symm⟩
  · obtain ⟨hle, hlt⟩ := initialHash_isFloorRoot i
    exact ⟨_, hle, hlt, (scaledRoot_mod ..).symm⟩

end Sys2Proof.Machine
end

section
/-! Laws of the bytes of Pad and of Hex: where each part of the padded chunk stands, and the digits of a byte (R142,
R143, R220, R222). -/

namespace Sys2Proof.Machine

variable {s : List Byte} {l : BitVec 64} {i : Nat}

/-! ### Parts of a bit vector -/

theorem extractLsb'_extractLsb' {w a b m n : Nat} (x : BitVec w) (h : b + n ≤ m) :
    (x.extractLsb' a m).extractLsb' b n = x.extractLsb' (a + b) n := by
  refine BitVec.eq_of_getLsbD_eq fun i hi => ?_
  simp [hi, show b + i < m by omega, Nat.add_assoc]

/-- BE64bytes, a byte at a time (R8). -/
theorem be64Bytes_eq_map (l : BitVec 64) :
    be64Bytes l = (List.range 8).map fun i => l.extractLsb' (56 - 8 * i) 8 := by
  simp [be64Bytes, wordBytes, extractLsb'_extractLsb', List.range_succ]

theorem be64Bytes_getElem? (l : BitVec 64) (hi : i < 8) :
    (be64Bytes l)[i]? = some (l.extractLsb' (56 - 8 * i) 8) := by
  simp [be64Bytes_eq_map, hi]

/-- Read as a big-endian number, the eight bytes of a length are the length. -/
theorem foldl_be64Bytes (l : BitVec 64) : (be64Bytes l).foldl (fun n v => 256 * n + v.toNat) 0 = l.toNat := by
  have hlt := l.isLt
  simp only [be64Bytes_eq_map, List.range_succ, List.range_zero, List.map_append, List.map_cons, List.map_nil,
    List.foldl_append, List.foldl_cons, List.foldl_nil, List.nil_append, BitVec.extractLsb'_toNat,
    Nat.shiftRight_eq_div_pow]
  omega

/-! ### Where the parts of a padded chunk stand (R142) -/

/-- The zero count as a remainder of integers (R7). -/
theorem zeroFill_cast (c : Nat) : (zeroFill c : Int) = (55 - (c : Int)) % 64 :=
  Int.toNat_of_nonneg (Int.emod_nonneg _ (by decide))

/-- The zero count is the least that leaves eight bytes to a block boundary. -/
theorem zeroFill_least {c k : Nat} (h : (c + 1 + k + 8) % 64 = 0) : zeroFill c ≤ k := by
  have hk := zeroFill_cast c
  omega

theorem zeroFill_fills (c : Nat) : (c + 1 + zeroFill c + 8) % 64 = 0 := by
  have hk := zeroFill_cast c
  omega

theorem pad_getElem?_chunk (l : BitVec 64) (hi : i < s.length) : (pad s l)[i]? = s[i]? := by
  rw [pad, List.append_assoc, List.append_assoc, List.getElem?_append_left hi]

theorem pad_getElem?_marker (s : List Byte) (l : BitVec 64) : (pad s l)[s.length]? = some 0x80 := by
  rw [pad, List.append_assoc, List.append_assoc, List.getElem?_append_right le_rfl, Nat.sub_self]
  rfl

theorem pad_getElem?_zero (hlo : s.length < i) (hhi : i + 8 < (pad s l).length) : (pad s l)[i]? = some 0 := by
  rw [pad_length] at hhi
  have hmarker : (s ++ [0x80]).length = s.length + 1 := List.length_append
  have hfill : (s ++ [0x80] ++ zeros (zeroFill s.length)).length = s.length + 1 + zeroFill s.length := by
    simp
    omega
  rw [pad, List.getElem?_append_left (by omega), List.getElem?_append_right (by omega), zeros,
    List.getElem?_replicate, if_pos (by omega)]

/-- The last eight bytes of a padded chunk are the length. -/
theorem drop_pad (s : List Byte) (l : BitVec 64) : (pad s l).drop ((pad s l).length - 8) = be64Bytes l := by
  have hlen : (pad s l).length - 8 = (s ++ [0x80] ++ zeros (zeroFill s.length)).length := by
    simp [pad]
    omega
  rw [hlen, pad, List.drop_left]

/-! ### The digits of a byte (R222) -/

/-- The two digits of a byte, high nibble first. -/
def byteDigits (v : Byte) : List Byte := [hexDigit (v.extractLsb' 4 4), hexDigit (v.extractLsb' 0 4)]

/-- The eight digits of a word are those of its four bytes. -/
theorem hexWord_eq_flatMap (v : Word) : hexWord v = (wordBytes v).flatMap byteDigits := by
  simp [hexWord, wordBytes, byteDigits, extractLsb'_extractLsb', List.range_succ]

theorem hex_eq_flatMap (h : HashState) : hex h = (h.toList.flatMap wordBytes).flatMap byteDigits := by
  rw [hex, List.flatMap_assoc, funext hexWord_eq_flatMap]

theorem flatMap_wordBytes_length (ws : List Word) : (ws.flatMap wordBytes).length = 4 * ws.length := by
  simp [List.length_flatMap, Nat.mul_comm]

end Sys2Proof.Machine
end

section
/-! Obligations of Pad, Hex and Compress (spec/41_padding.md, spec/42_compression.md, spec/44_digest_formatter.md). -/

namespace Sys2Proof.Machine

/-- Settles O9, one lemma of the padded chunk's parts per clause. -/
theorem padBytes : Obligations.PadBytes := by
  intro s l hs
  refine ⟨?shape, ⟨zeroFill s.length, zeroFill_cast _, ?_, zeroFill_fills _, fun k' => zeroFill_least⟩,
    fun i hi => pad_getElem?_chunk l hi, pad_getElem?_marker s l, fun i => pad_getElem?_zero, fun i hi => ?tail, ?value⟩
  case shape =>
    obtain ⟨hc, hp⟩ | ⟨hc, hp⟩ := pad_length_cases hs l
    · rw [hp, if_pos hc]
    · rw [hp, if_neg (by omega)]
  · rw [pad_length]
    omega
  case tail => rw [← List.getElem?_drop, drop_pad, be64Bytes_getElem? l hi]
  case value => rw [drop_pad, foldl_be64Bytes]

/-- Settles O11: the bytes of a word are `wordBytes`, and its digits are those of the bytes. -/
theorem hexOfDigestBytes : Obligations.HexOfDigestBytes := fun h =>
  ⟨(flatMap_wordBytes_length h.toList).trans (by simp), hex_eq_flatMap h⟩

/-- Settles O8, by evaluating the three compressions. -/
theorem compressWorkedValues : Obligations.CompressWorkedValues := by
  unfold Obligations.CompressWorkedValues
  decide +kernel

end Sys2Proof.Machine
end

section
/-! Laws of what a command writes: the registers and the bytes of the column "core writes" of R20's table, the rows of
the driver's table, and what leaves DV = 1 (R20, R28, R190). -/

namespace Sys2Proof.Machine

variable {s t : State} {i : Instr} {c : Nat} {p : List Byte}

/-! ### Core writes (R20) -/

/-- `s` with the registers that R20's table lets the command write taken from `u`. -/
def coreWrite (i : Instr) (u s : State) : State :=
  match i with
  | .init => { s with hreg := u.hreg, err := u.err, drv := u.drv, dv := u.dv, padcnt := u.padcnt, rem := u.rem }
  | .compress => { s with hreg := u.hreg, drv := u.drv, dv := u.dv }
  | .pad _ => { s with mem := u.mem, padcnt := u.padcnt }
  | .final _ => { s with hreg := u.hreg, mem := u.mem, drv := u.drv, dv := u.dv, padcnt := u.padcnt }
  | .format => { s with mem := u.mem, dv := u.dv }
  | .start => { s with hreg := u.hreg, drv := u.drv, dv := u.dv, rem := u.rem, dlen := u.dlen }
  | .chunk _ =>
    { s with hreg := u.hreg, mem := u.mem, drv := u.drv, dv := u.dv, padcnt := u.padcnt, rem := u.rem }

/-- The bytes that R20's table lets the command write: PADBUF and DIGEST. -/
def writesByte (i : Instr) (x : Nat) : Prop :=
  match i with
  | .init | .compress | .start => False
  | .pad _ | .final _ => 0x080 ≤ x ∧ x < 0x100
  | .format => 0x100 ≤ x ∧ x < 0x140
  | .chunk _ => 0x080 ≤ x ∧ x < 0x140

theorem exec_next_coreWrite (h : exec i s = .next t) : Declined s t ∨ ∃ u, t = coreWrite i u s := by
  suffices Declined s t ∨ t = coreWrite i t s from this.imp_right fun ht => ⟨t, ht⟩
  cases i with
  | init =>
    cases h
    exact .inr rfl
  | compress => exact (execCompress_next h).imp_right fun ⟨_, _, _, _, ht⟩ => ht ▸ rfl
  | pad c => exact (execPad_next h).imp_right fun ⟨_, _, _, _, _, _, _, _, ht⟩ => ht ▸ rfl
  | final c => exact (execFinal_next h).imp_right fun ⟨_, _, _, _, _, _, _, _, ht⟩ => ht ▸ rfl
  | format => exact (execFormat_next h).imp_right fun ⟨_, _, ht⟩ => ht ▸ rfl
  | start => exact (execStart_next h).imp_right fun ⟨_, _, _, _, _, _, ht⟩ => ht ▸ rfl
  | chunk c =>
    refine (execChunk_next h).imp_right ?_
    rintro ⟨-, -, -, ⟨-, _, -, rfl⟩ | ⟨-, _, -, rfl⟩⟩ <;> rfl

theorem Declined.mem_eq (h : Declined s t) : t.mem = s.mem := by
  obtain ⟨-, rfl⟩ | ⟨-, e, -, rfl⟩ := h
  · rfl
  · exact State.raise_mem s e

/-- A byte the command may not write reads as before. -/
theorem exec_next_read (h : exec i s = .next t) {x : Nat} (hx : ¬ writesByte i x) :
    t.mem.read x = s.mem.read x := by
  have declined (hdecl : Declined s t) : t.mem.read x = s.mem.read x := by rw [hdecl.mem_eq]
  cases i with
  | init =>
    cases h
    rfl
  | compress =>
    obtain hdecl | ⟨-, -, b, -, rfl⟩ := execCompress_next h
    · exact declined hdecl
    · rfl
  | pad c =>
    obtain hdecl | ⟨-, -, hc, l, chunk, -, -, hb, rfl⟩ := execPad_next h
    · exact declined hdecl
    · obtain ⟨-, -, hsame⟩ := putPadding_buffers s (pad_length_eq_or (fetchBlk_length hb ▸ hc) (l.setWidth 64))
      exact hsame x (by simp only [writesByte] at hx; omega)
  | final c =>
    obtain hdecl | ⟨-, -, hc, l, chunk, -, -, hb, rfl⟩ := execFinal_next h
    · exact declined hdecl
    · obtain ⟨-, -, hsame⟩ := putPadding_buffers s (pad_length_eq_or (fetchBlk_length hb ▸ hc) (l.setWidth 64))
      exact hsame x (by simp only [writesByte] at hx; omega)
  | format =>
    obtain hdecl | ⟨-, -, rfl⟩ := execFormat_next h
    · exact declined hdecl
    · obtain ⟨-, hsame⟩ := putDigest_buffers s s.hreg
      exact hsame x (by simp only [writesByte] at hx; omega)
  | start =>
    obtain hdecl | ⟨-, -, l, -, -, -, rfl⟩ := execStart_next h
    · exact declined hdecl
    · rfl
  | chunk c =>
    obtain hdecl | ⟨-, -, hc, ⟨-, b, -, rfl⟩ | ⟨-, chunk, hb, rfl⟩⟩ := execChunk_next h
    · exact declined hdecl
    · rfl
    · obtain ⟨-, -, -, hsame⟩ := finishStream_buffers s (pad_due_length hb hc s.dlen)
      exact hsame x (by simp only [writesByte] at hx; omega)

theorem writesByte_of_ne (h : exec i s = .next t) {x : Nat} (hx : t.mem.read x ≠ s.mem.read x) : writesByte i x := by
  by_contra hn
  exact hx (exec_next_read h hn)

theorem writesByte_window {x : Nat} (h : writesByte i x) : 0x080 ≤ x ∧ x < 0x140 := by
  cases i with
  | init | compress | start => exact h.elim
  | pad c | final c | format | chunk c => simp only [writesByte] at h; omega

theorem writesByte_padbuf {x : Nat} (h : writesByte i x) (hx : x < 0x100) :
    (∃ c, i = .pad c) ∨ (∃ c, i = .final c) ∨ ∃ c, i = .chunk c := by
  cases i with
  | init | compress | start => exact h.elim
  | format => exact absurd h.1 (Nat.not_le.2 hx)
  | pad c | final c | chunk c => simp

theorem writesByte_digest {x : Nat} (h : writesByte i x) (hx : 0x100 ≤ x) : i = .format ∨ ∃ c, i = .chunk c := by
  cases i with
  | init | compress | start => exact h.elim
  | pad c | final c => exact absurd h.2 (Nat.not_lt.2 hx)
  | format | chunk c => simp

/-! ### A digest stays valid (R28) -/

/-- DV was 1, and HREG and the bytes of DIGEST are as before. -/
def DigestKept (s t : State) : Prop :=
  s.dv = true ∧ t.hreg = s.hreg ∧ ∀ x, 0x100 ≤ x → x < 0x140 → t.mem.read x = s.mem.read x

theorem digestKept_self (h : s.dv = true) : DigestKept s s := ⟨h, rfl, fun _ _ _ => rfl⟩

/-- An error clears DV, so a command that was declined and leaves DV = 1 was ignored. -/
theorem Declined.digestKept (h : Declined s t) (hv : t.dv = true) : DigestKept s t := by
  obtain ⟨-, rfl⟩ | ⟨-, e, -, rfl⟩ := h
  · exact digestKept_self hv
  · cases hv

/-- Which commands leave DV = 1. -/
theorem exec_next_valid (hread : s.drv = .read → s.dv = false) (h : exec i s = .next t) (hv : t.dv = true) :
    (i = .format ∧ t.holdsDigest t.hreg) ∨
      (∃ c, c ≤ 64 ∧ i = .chunk c ∧ t.drv = .done ∧ t.holdsDigest t.hreg) ∨ DigestKept s t := by
  cases i with
  | init =>
    cases h
    cases hv
  | compress =>
    obtain hdecl | ⟨-, -, b, -, rfl⟩ := execCompress_next h
    · exact .inr (.inr (hdecl.digestKept hv))
    · cases hv
  | pad c =>
    have hkept : ∀ x, 0x100 ≤ x → x < 0x140 → t.mem.read x = s.mem.read x :=
      fun x hx _ => exec_next_read h fun hw => absurd hw.2 (Nat.not_lt.2 hx)
    obtain hdecl | ⟨-, -, -, l, chunk, -, -, -, rfl⟩ := execPad_next h
    · exact .inr (.inr (hdecl.digestKept hv))
    · exact .inr (.inr ⟨hv, rfl, hkept⟩)
  | final c =>
    obtain hdecl | ⟨-, -, -, l, chunk, -, -, -, rfl⟩ := execFinal_next h
    · exact .inr (.inr (hdecl.digestKept hv))
    · cases hv
  | format =>
    obtain hdecl | ⟨-, -, rfl⟩ := execFormat_next h
    · exact .inr (.inr (hdecl.digestKept hv))
    · exact .inl ⟨rfl, (putDigest_buffers s s.hreg).1⟩
  | start =>
    obtain hdecl | ⟨-, -, l, -, -, -, rfl⟩ := execStart_next h
    · exact .inr (.inr (hdecl.digestKept hv))
    · cases hv
  | chunk c =>
    obtain hdecl | ⟨-, hd, hc, ⟨-, b, -, rfl⟩ | ⟨-, chunk, hb, rfl⟩⟩ := execChunk_next h
    · exact .inr (.inr (hdecl.digestKept hv))
    · cases (hread hd).symm.trans hv
    · obtain ⟨-, -, hdig, -⟩ := finishStream_buffers s (pad_due_length hb hc s.dlen)
      exact .inr (.inl ⟨c, hc.trans_le (Nat.min_le_left ..), rfl, rfl, hdig⟩)

/-- LEN and BLK lie below DIGEST. -/
theorem store_digestKept {a : Nat} {v : Word} (ha : a + 4 ≤ 0x100) (hv : s.dv = true) :
    DigestKept s (s.store a (wordBytes v)) :=
  ⟨hv, rfl, fun x hx _ => store_same s (wordBytes_length v) x (.inr (ha.trans hx))⟩

/-- Which writes leave DV = 1. -/
theorem writeReg_next_valid {r : WindowReg} {v : Word} (hread : s.drv = .read → s.dv = false)
    (h : writeReg r v s = .next t) (hv : t.dv = true) :
    (r = .cmd ∧ v = encode .format ∧ t.holdsDigest t.hreg) ∨
      (r = .cmd ∧ (∃ c, c ≤ 64 ∧ v = encode (.chunk c)) ∧ t.drv = .done ∧ t.holdsDigest t.hreg) ∨ DigestKept s t := by
  cases r with
  | cmd =>
    obtain ⟨i, hdec, hexec⟩ | ⟨-, hdecl⟩ := issue_next h
    · have hword := encode_of_decode hdec
      obtain ⟨rfl, hdig⟩ | ⟨c, hc, rfl, hdone, hdig⟩ | hkept := exec_next_valid hread hexec hv
      · exact .inl ⟨rfl, hword.symm, hdig⟩
      · exact .inr (.inl ⟨rfl, ⟨c, hc, hword.symm⟩, hdone, hdig⟩)
      · exact .inr (.inr hkept)
    · exact .inr (.inr (hdecl.digestKept hv))
  | len i =>
    cases h
    exact .inr (.inr (store_digestKept (by simp only [WindowReg.offset, lenBase]; omega) hv))
  | blkw i =>
    cases h
    exact .inr (.inr (store_digestKept (by simp only [WindowReg.offset, blkBase]; omega) hv))
  | hreg i => obtain ⟨-, rfl⟩ | ⟨-, rfl⟩ := writeHreg_next h <;> cases hv
  | status | padw i | digw i | rem0 | rem1 => cases h

end Sys2Proof.Machine
end

section
/-! Obligations of the whole machine (spec/10_state.md, spec/43_block_driver.md, spec/60_exceptions.md,
spec/70_reset_and_hazards.md). -/

namespace Sys2Proof.Machine

/-- Settles O2: INIT's answer is the reset state but for the buffers and DLEN. -/
theorem resetIsInitWithEmptyBuffers : Obligations.ResetIsInitWithEmptyBuffers := fun s hbusy =>
  ⟨_, exec_init s, by simp [State.platformReset, State.reset, hbusy]⟩

/-- Settles O26: with DRV = ERROR, INIT's word is the one access that changes ERR (`accessReg_changes_err`). -/
theorem errorIsSticky : Obligations.ErrorIsSticky := by
  intro s t hinv he hstep
  obtain ⟨-, rfl⟩ | ⟨a, rest, hin, hacc⟩ | ⟨rest, hin, -⟩ := step_next hstep
  · exact .inl rfl
  · obtain ⟨-, -, -, haligned, -, r, hr, hreg⟩ := hostAccess_next hacc
    by_cases hkeep : t.err = s.err
    · exact .inl hkeep
    · obtain ⟨rfl, hkind⟩ := accessReg_changes_err (s := (s.setInputs rest).setOwner a.host) he (hinv.2 he) hreg hkeep
      exact .inr (.inr ⟨a, rest, hin, (windowReg_offset haligned hr).symm, hkind⟩)
  · exact .inr (.inl ⟨rest, hin⟩)

/-- Settles O29: the bytes by `exec_next_read`, the registers by `exec_next_coreWrite`. -/
theorem coreWritesTable : Obligations.CoreWritesTable := by
  intro i s t h
  have hlow : ∀ x, x < 0x080 → t.mem.read x = s.mem.read x :=
    fun x hx => exec_next_read h fun hw => absurd (writesByte_window hw).1 (Nat.not_le.2 hx)
  have hhigh : ∀ x, 0x140 ≤ x → t.mem.read x = s.mem.read x :=
    fun x hx => exec_next_read h fun hw => absurd (writesByte_window hw).2 (Nat.not_lt.2 hx)
  have hpad : (∃ x, 0x080 ≤ x ∧ x < 0x100 ∧ t.mem.read x ≠ s.mem.read x) →
      (∃ c, i = .pad c) ∨ (∃ c, i = .final c) ∨ ∃ c, i = .chunk c :=
    fun ⟨_, _, hx, hne⟩ => writesByte_padbuf (writesByte_of_ne h hne) hx
  have hdig : (∃ x, 0x100 ≤ x ∧ x < 0x140 ∧ t.mem.read x ≠ s.mem.read x) → i = .format ∨ ∃ c, i = .chunk c :=
    fun ⟨_, hx, _, hne⟩ => writesByte_digest (writesByte_of_ne h hne) hx
  refine ⟨?_, hlow, hpad, hdig, hhigh, ?_⟩
  all_goals
    obtain (⟨-, rfl⟩ | ⟨-, e, -, rfl⟩) | ⟨u, rfl⟩ := exec_next_coreWrite h
    · simp
    · simp
    · cases i <;> simp [coreWrite]

/-- Settles O30: a command that was not declined and changes DRV is one of the table's rows. -/
theorem driverTransitions : Obligations.DriverTransitions := by
  intro i s t hinv h hne
  have hraise (hdecl : Declined s t) : s.drv ≠ .error ∧ t.drv = .error ∧ t.err ≠ .none := by
    obtain ⟨-, rfl⟩ | ⟨he, e, hnone, rfl⟩ := hdecl
    · exact absurd rfl hne
    · exact ⟨fun hd => hinv.1 hd he, rfl, hnone⟩
  have hdone (he : s.err = .none) (hd : s.drv ≠ .read) (hidle : t.drv = .idle) : s.drv = .done :=
    (idle_or_done hinv he hd).resolve_left fun hs => hne (hidle.trans hs.symm)
  by_cases hdecl : Declined s t
  · exact .inr (.inr (.inl (hraise hdecl)))
  cases i with
  | init =>
    cases h
    exact .inr (.inr (.inr (.inl ⟨rfl, rfl⟩)))
  | compress =>
    obtain ⟨he, hd, b, -, rfl⟩ := (execCompress_next h).resolve_left hdecl
    exact .inr (.inr (.inr (.inr ⟨hdone he hd rfl, .inl rfl, rfl⟩)))
  | pad c =>
    obtain ⟨-, -, -, l, chunk, -, -, -, rfl⟩ := (execPad_next h).resolve_left hdecl
    exact absurd rfl hne
  | final c =>
    obtain ⟨he, hd, -, l, chunk, -, -, -, rfl⟩ := (execFinal_next h).resolve_left hdecl
    exact .inr (.inr (.inr (.inr ⟨hdone he hd rfl, .inr ⟨c, rfl⟩, rfl⟩)))
  | format =>
    obtain ⟨-, -, rfl⟩ := (execFormat_next h).resolve_left hdecl
    exact absurd rfl hne
  | start =>
    obtain ⟨he, hd, l, hl, hfit, hbits, rfl⟩ := (execStart_next h).resolve_left hdecl
    exact .inl ⟨idle_or_done hinv he hd, rfl, rfl, l, holdsLen_iff_words.2 (fetchLen_eq_ok_iff.1 hl), hfit,
      (setWidth_toNat_mod_eight l).symm.trans hbits⟩
  | chunk c =>
    obtain ⟨-, hd, hc, ⟨-, b, -, rfl⟩ | ⟨hrem, chunk, -, rfl⟩⟩ := (execChunk_next h).resolve_left hdecl
    · exact absurd rfl hne
    · exact .inr (.inl ⟨hd, congrArg Instr.chunk (hc.trans (Nat.min_eq_right hrem)), hrem, rfl⟩)

/-- Settles O31: a read keeps the digest, a write is one of the cases of `writeReg_next_valid`. -/
theorem digestValidCauses : Obligations.DigestValidCauses := by
  intro r k s t hread h hv
  cases k with
  | read =>
    simp only [accessReg] at h
    split at h
    · cases h
    · cases h
      exact .inr (.inr ⟨hv, rfl, fun _ _ _ => rfl⟩)
  | write v =>
    obtain ⟨hr, rfl, hdig⟩ | ⟨hr, ⟨c, hc, rfl⟩, hdone⟩ | hkept := writeReg_next_valid hread h hv
    · exact .inl ⟨hr, rfl, hdig⟩
    · exact .inr (.inl ⟨hr, ⟨c, hc, rfl⟩, hdone⟩)
    · exact .inr (.inr hkept)

end Sys2Proof.Machine
end

section
/-! Laws of the accesses an instance serves: the map of the window both ways, the host that drives it, reads, STATUS and
its bits, and BUSY = 1 (R26 to R30, R53 to R58, R63, R280). -/

namespace Sys2Proof.Machine

variable {s t : State} {a : Access} {r : WindowReg} {v : Word}

/-! ### The map of the window (R53) -/

theorem offset_aligned (r : WindowReg) : r.offset % 4 = 0 := by
  cases r <;>
    simp only [WindowReg.offset, cmdOffset, statusOffset, lenBase, hregBase, blkBase, padBase, digBase, rem0Offset,
      rem1Offset] <;>
    omega

theorem offset_lt_windowSize (r : WindowReg) : r.offset < windowSize := by
  have hmap := offset_not_reserved r
  unfold windowSize
  omega

/-- Each register, one by one, stands in the map at its offset. -/
theorem windowReg_of_offset (r : WindowReg) : windowReg r.offset = some r := by
  cases r with
  | cmd | status | rem0 | rem1 => rfl
  | len i | hreg i | blkw i | padw i | digw i =>
    revert i
    decide

theorem windowReg_eq_some_iff {o : Nat} (ho : o % 4 = 0) : windowReg o = some r ↔ r.offset = o :=
  ⟨windowReg_offset ho, fun h => h ▸ windowReg_of_offset r⟩

/-! ### The driving host (R63) -/

theorem foreignHost_eq_false_iff : foreignHost a s = false ↔ s.owner = none ∨ s.owner = some a.host := by
  unfold foreignHost
  cases s.owner with
  | none => simp
  | some h => simp

theorem foreignHost_of_other {h : Nat} (ho : s.owner = some h) (hne : a.host ≠ h) : foreignHost a s = true := by
  simp [foreignHost, ho, hne.symm]

theorem hostAccess_of_foreign (h : foreignHost a s = true) : hostAccess a s = .fault (.secondHost a.host) := by
  simp [hostAccess, h]

theorem Declined.owner_eq (h : Declined s t) : t.owner = s.owner := by
  obtain ⟨-, rfl⟩ | ⟨-, e, -, rfl⟩ := h
  · rfl
  · exact State.raise_owner s e

theorem exec_next_owner {i : Instr} (h : exec i s = .next t) : t.owner = s.owner := by
  obtain hdecl | ⟨u, rfl⟩ := exec_next_coreWrite h
  · exact hdecl.owner_eq
  · cases i <;> rfl

theorem accessReg_next_owner {k : AccessKind} (h : accessReg r k s = .next t) : t.owner = s.owner := by
  cases k with
  | read =>
    simp only [accessReg] at h
    split at h
    · cases h
    · cases h
      rfl
  | write v =>
    cases r with
    | cmd =>
      obtain ⟨i, -, hexec⟩ | ⟨-, hdecl⟩ := issue_next h
      · exact exec_next_owner hexec
      · exact hdecl.owner_eq
    | hreg i => obtain ⟨-, rfl⟩ | ⟨-, rfl⟩ := writeHreg_next h <;> rfl
    | len i | blkw i =>
      cases h
      rfl
    | status | padw i | digw i | rem0 | rem1 => cases h

/-! ### Serving an access -/

/-- An aligned 32-bit access of a register, from the driving host and with BUSY = 0, is that register's access. -/
theorem step_access {host : Nat} {k : AccessKind} {rest : List Input}
    (hin : s.inputs = .access ⟨host, 4, r.offset, k⟩ :: rest) (ho : s.owner = none ∨ s.owner = some host)
    (hb : s.busy = false) : step s = accessReg r k ((s.setInputs rest).setOwner host) := by
  have hserve : step s = hostAccess ⟨host, 4, r.offset, k⟩ (s.setInputs rest) := by simp [step, hin, serve]
  exact hserve.trans <| hostAccess_of_register (s := s.setInputs rest) (a := ⟨host, 4, r.offset, k⟩)
    (foreignHost_eq_false_iff.2 ho) hb rfl (offset_aligned r) (offset_lt_windowSize r) (windowReg_of_offset r)

theorem decode_of_decodeTableWord {w : Nat} {i : Instr} (h : decodeTableWord 32 w = some i) :
    decode (BitVec.ofNat 32 (w % 2 ^ 32)) = .ok i := by
  rw [decodeTableWord, if_pos (Nat.mod_lt _ (by decide))] at h
  cases hd : decode (BitVec.ofNat 32 (w % 2 ^ 32)) with
  | ok j =>
    rw [hd] at h
    exact congrArg Except.ok (Option.some.inj h)
  | error e =>
    rw [hd] at h
    cases h

/-! ### Reads (R54, R58) -/

theorem accessReg_read_of_ok (h : readReg r s = .ok v) : accessReg r .read s = .next (s.returnRead v) := by
  simp [accessReg, h]

theorem accessReg_read_of_error {f : Fault} (h : readReg r s = .error f) : accessReg r .read s = .fault f := by
  simp [accessReg, h]

/-- STATUS looks at the free value only while BUSY = 1. -/
theorem statusRead_of_not_busy (hb : s.busy = false) : statusRead s = statusWord s := by
  simp [statusRead, hb]

theorem readReg_returnRead (hb : s.busy = false) (r : WindowReg) (v : Word) :
    readReg r (s.returnRead v) = readReg r s := by
  cases r with
  | status =>
    have hb' : (s.returnRead v).busy = false := hb
    simp only [readReg, statusRead_of_not_busy hb, statusRead_of_not_busy hb']
    rfl
  | cmd | len i | hreg i | blkw i | padw i | digw i | rem0 | rem1 => rfl

/-- The words of the four buffers. -/
def IsBufferWord (r : WindowReg) : Prop :=
  (∃ i, r = .len i) ∨ (∃ i, r = .blkw i) ∨ (∃ i, r = .padw i) ∨ ∃ i, r = .digw i

theorem readReg_bufferWord (h : IsBufferWord r) (s : State) : readReg r s = s.mem.fetchWord r.offset := by
  obtain ⟨i, rfl⟩ | ⟨i, rfl⟩ | ⟨i, rfl⟩ | ⟨i, rfl⟩ := h <;> rfl

theorem fetchWord_of_lacks {o : Nat} (h : s.lacks o 4) : ∃ x, s.mem.fetchWord o = .error (.unwrittenByte x) := by
  obtain ⟨x, hx⟩ := fetchBytes_of_lacks h
  exact ⟨x, by simp [Memory.fetchWord, hx]⟩

theorem fetchWord_of_holds {o : Nat} {b0 b1 b2 b3 : Byte} (h : s.holdsBytes o [b0, b1, b2, b3]) :
    s.mem.fetchWord o = .ok (b0 ++ b1 ++ b2 ++ b3) := by
  have hbytes : s.mem.fetchBytes o 4 = .ok [b0, b1, b2, b3] := fetchBytes_of_holds h
  simp [Memory.fetchWord, hbytes, be32]

/-! ### The bits of STATUS (R26 to R30) -/

theorem errBits_toNat (e : ErrCode) : e.bits.toNat = match e with
    | .none => 0 | .inputTooLarge => 1 | .ioError => 2 | .contract => 3 | .sequence => 4 | .illegalCmd => 5 := by
  cases e <;> rfl

theorem drvBits_toNat (d : DrvState) : d.bits.toNat = match d with
    | .idle => 0 | .read => 1 | .done => 2 | .error => 3 := by
  cases d <;> rfl

theorem padcntBits_toNat (n : PadCount) : (BitVec.ofNat 2 n.blocks).toNat = match n with
    | .zero => 0 | .one => 1 | .two => 2 := by
  cases n <;> rfl

/-- The fields of STATUS with BUSY = 0, each at its place. -/
theorem statusWord_toNat (hb : s.busy = false) :
    (statusWord s).toNat =
      s.err.bits.toNat + 16 * s.drv.bits.toNat + 64 * s.dv.toNat + 256 * (BitVec.ofNat 2 s.padcnt.blocks).toNat := by
  have hdv : (BitVec.ofBool s.dv).toNat = s.dv.toNat := BitVec.toNat_ofBool _
  have hbusy : (BitVec.ofBool s.busy).toNat = 0 := by simp [hb]
  simp only [statusWord, toNat_append_eq_add, BitVec.ofNat_eq_ofNat, BitVec.toNat_zero, hdv, hbusy]
  omega

/-! ### BUSY = 1 (R280) -/

theorem isStatusRead_iff : a.isStatusRead = true ↔ a.kind = .read ∧ a.width = 4 ∧ a.offset = 0x004 := by
  simp [Access.isStatusRead, statusOffset, and_assoc]

theorem hostAccess_of_busy (hh : foreignHost a s = false) (hb : s.busy = true) (h : a.isStatusRead = false) :
    hostAccess a s = .fault .accessWhileBusy := by
  simp [hostAccess, hh, hb, h]

/-- A STATUS read is served whatever BUSY is. -/
theorem hostAccess_of_statusRead (hh : foreignHost a s = false) (h : a.isStatusRead = true) :
    hostAccess a s = .next ((s.setOwner a.host).returnRead (statusRead (s.setOwner a.host))) := by
  obtain ⟨hkind, hwidth, hoffset⟩ := isStatusRead_iff.1 h
  have hreg : windowReg 0x004 = some .status := rfl
  simp [hostAccess, hh, h, hkind, hwidth, hoffset, hreg, windowSize, accessReg, readReg]

/-- The reserved bits of STATUS. -/
abbrev IsReservedBit (b : Nat) : Prop := b = 3 ∨ b = 7 ∨ (10 ≤ b ∧ b < 16) ∨ 17 ≤ b

theorem statusMasks_reserved :
    ∀ b < 32, IsReservedBit b → statusFieldMask.getLsbD b = false ∧ statusBusyBit.getLsbD b = false := by
  decide

theorem statusRead_busyBit (hb : s.busy = true) : (statusRead s).getLsbD 16 = true := by
  have hbit : statusBusyBit.getLsbD 16 = true := by decide
  simp [statusRead, hb, hbit]

theorem statusRead_reserved (hb : s.busy = true) {b : Nat} (h : IsReservedBit b) :
    (statusRead s).getLsbD b = false := by
  obtain hlt | hge := Nat.lt_or_ge b 32
  · obtain ⟨hmask, hbusy⟩ := statusMasks_reserved b hlt h
    simp [statusRead, hb, hmask, hbusy]
  · exact BitVec.getLsbD_of_ge _ _ hge

end Sys2Proof.Machine
end

section
/-! Obligations of the accesses an instance serves (spec/10_state.md, spec/20_memory.md, spec/60_exceptions.md,
spec/70_reset_and_hazards.md). -/

namespace Sys2Proof.Machine

/-- Settles O16: each step is `step_access`; a command word goes on to the command it decodes to. -/
theorem stepRunsDecodedCommand : Obligations.StepRunsDecodedCommand := by
  refine ⟨fun s hin => by simp [step, hin], fun s host r k rest => step_access, fun s host v rest i hin ho hb hd => ?_,
    fun s w i hw => ?_⟩
  · exact (step_access (r := .cmd) hin ho hb).trans (accessReg_cmd_write hd _)
  · have ho : s.owner = none ∨ s.owner = some (s.owner.getD 0) := by cases s.owner <;> simp
    exact (step_access (s := s.withFetchWord 32 w) (r := .cmd) rfl ho rfl).trans
      (accessReg_cmd_write (decode_of_decodeTableWord hw) _)

/-- Settles O32: the map and the offsets by `windowReg_eq_some_iff` and `windowReg_eq_none_iff`. -/
theorem windowMap : Obligations.WindowMap :=
  ⟨rfl, rfl, rfl, rfl, fun _ => rfl, fun _ => rfl, fun _ => rfl, fun _ => rfl, fun _ => rfl,
    fun _ _ _ ho => windowReg_eq_some_iff ho, fun _ _ ho => windowReg_eq_none_iff ho⟩

/-- Settles O34, the reads by `accessReg_read_of_ok`, the words of the buffers by `readReg_bufferWord`. -/
theorem hostReads : Obligations.HostReads := by
  intro s
  refine ⟨fun r v hv => ⟨_, accessReg_read_of_ok hv, rfl, fun hb => ⟨by simp [hb], ?repeats⟩⟩, rfl, fun i => rfl,
    fun r hr => ⟨fun hlacks => ?unwritten, fun b0 b1 b2 b3 hbytes => ?packed⟩⟩
  case repeats => exact (readReg_returnRead hb r v).trans hv
  case unwritten =>
    obtain ⟨x, hx⟩ := fetchWord_of_lacks hlacks
    exact ⟨x, accessReg_read_of_error ((readReg_bufferWord hr s).trans hx)⟩
  case packed => exact (readReg_bufferWord hr s).trans (fetchWord_of_holds hbytes)

/-- Settles O36: any other access fails the check of BUSY, a STATUS read returns the BUSY bit and the masked free
value. -/
theorem busyAccesses : Obligations.BusyAccesses := by
  refine fun s a hh hb => ⟨fun hother => ?_, fun hstatus => ?_⟩
  · exact hostAccess_of_busy hh hb (Bool.eq_false_iff.2 (mt isStatusRead_iff.1 hother))
  · have hbusy : (s.setOwner a.host).busy = true := hb
    exact ⟨_, _, hostAccess_of_statusRead hh (isStatusRead_iff.2 hstatus), rfl, statusRead_busyBit hbusy,
      fun b => statusRead_reserved hbusy, rfl⟩

/-- Settles O37: the first check of an access is the driving host; no access of a register changes it. -/
theorem secondHostFaults : Obligations.SecondHostFaults := by
  refine fun s a => ⟨fun h ho hne => hostAccess_of_foreign (foreignHost_of_other ho hne), fun t h => ?_⟩
  obtain ⟨-, -, -, -, -, r, -, hreg⟩ := hostAccess_next h
  exact accessReg_next_owner hreg

/-- Settles O38, a field at a time. -/
theorem statusLayout : Obligations.StatusLayout := by
  intro s hb
  have hfields := statusWord_toNat hb
  rw [errBits_toNat, drvBits_toNat, padcntBits_toNat] at hfields
  exact ⟨statusWord s, congrArg Except.ok (statusRead_of_not_busy hb), hfields⟩

end Sys2Proof.Machine
end

section
/-! Laws of the host's runs of word writes: what the steps that serve them leave (R54, R57, R61, R88). -/

namespace Sys2Proof.Machine

variable {s t u : State} {r : WindowReg} {v : Word} {host : Nat} {rest : List Input}

/-! ### Steps that serve writes of LEN and BLK -/

/-- One more step at the end of a run. -/
theorem run_succ_of_step {M : Host.Core} {n : Nat} {s t u : M.State} (hrun : M.run n s = .next u)
    (hstep : M.step u = .next t) : M.run (n + 1) s = .next t := by
  induction n generalizing s with
  | zero =>
    cases hrun
    simp [Host.Core.run, hstep]
  | succ n ih =>
    cases hs : M.step s with
    | next s' =>
      have hrun' : M.run n s' = .next u := by simpa only [Host.Core.run, hs] using hrun
      simpa only [Host.Core.run, hs] using ih hrun'
    | fault f => simp [Host.Core.run, hs] at hrun
    | refused f => simp [Host.Core.run, hs] at hrun

/-- The words of the buffers a host may write. -/
def IsOperandWord (r : WindowReg) : Prop := (∃ i, r = .len i) ∨ ∃ i, r = .blkw i

/-- A step that serves a host's write of a word of LEN or BLK stores it. -/
theorem step_storeWord (hr : IsOperandWord r) (hin : s.inputs = .access (write32 host r.offset v) :: rest)
    (ho : s.owner = none ∨ s.owner = some host) (hb : s.busy = false) :
    step s = .next (((s.setInputs rest).setOwner host).store r.offset (wordBytes v)) := by
  refine (step_access hin ho hb).trans ?_
  obtain ⟨i, rfl⟩ | ⟨i, rfl⟩ := hr <;> rfl

/-- The inputs of `n` writes by `host` of the words `f 0`, `f 1`, ... at rising offsets from `a`. -/
def wordWrites (host a n : Nat) (f : Nat → Word) : List Input :=
  (List.range n).map fun k => .access (write32 host (a + 4 * k) (f k))

theorem wordWrites_succ (host a n : Nat) (f : Nat → Word) :
    wordWrites host a (n + 1) f = wordWrites host a n f ++ [.access (write32 host (a + 4 * n) (f n))] := by
  simp [wordWrites, List.range_succ]

/-- The steps that serve `n` writes of words of LEN or BLK leave those words, and every other byte and register as it
was. -/
theorem run_wordWrites {a n : Nat} (f : Nat → Word)
    (hregs : ∀ k < n, ∃ r, IsOperandWord r ∧ WindowReg.offset r = a + 4 * k)
    (hin : s.inputs = wordWrites host a n f ++ rest) (ho : s.owner = none ∨ s.owner = some host)
    (hb : s.busy = false) :
    ∃ t, Sys2Proof.core.run n s = .next t ∧ (∀ k < n, t.mem.fetchWord (a + 4 * k) = .ok (f k)) ∧
      s.sameBytesOutside t a (4 * n) ∧ t = { s with mem := t.mem, inputs := rest, owner := t.owner } ∧
      t.owner = if n = 0 then s.owner else some host := by
  induction n generalizing rest with
  | zero => exact ⟨s, rfl, nofun, fun _ _ => rfl, by rw [← show s.inputs = rest from hin], rfl⟩
  | succ n ih =>
    rw [wordWrites_succ, List.append_assoc] at hin
    obtain ⟨u, hrun, hwords, hsame, hu, howner⟩ := ih (fun k hk => hregs k (hk.trans n.lt_succ_self)) hin
    obtain ⟨r, hr, hoff⟩ := hregs n n.lt_succ_self
    have huin : u.inputs = .access (write32 host r.offset (f n)) :: rest := by rw [hu, hoff]; rfl
    have hub : u.busy = false := by rw [hu]; exact hb
    have huo : u.owner = none ∨ u.owner = some host := by
      rw [howner]
      split
      · exact ho
      · exact .inr rfl
    refine ⟨_, run_succ_of_step hrun (step_storeWord hr huin huo hub), fun k hk => ?word, fun x hx => ?same, ?regs, rfl⟩
    case word =>
      rw [hoff]
      obtain hlt | rfl := Nat.lt_succ_iff_lt_or_eq.1 hk
      · exact (fetchWord_storeWord_disjoint _ _ (by omega)).trans (hwords k hlt)
      · exact fetchWord_storeWord _ _ _
    case same =>
      rw [hoff]
      exact (store_same _ (wordBytes_length _) x (by omega)).trans (hsame x (by omega))
    case regs =>
      rw [hu]
      rfl

/-! ### Words and the bytes they pack (R54) -/

theorem wordBytes_be32_getElem? (p : List Byte) (i : Nat) {m : Nat} (hm : m < 4) :
    (wordBytes (be32 p i))[m]? = some (p.getD (i + m) 0) := by
  have hbytes : wordBytes (be32 p i) = [p.getD i 0, p.getD (i + 1) 0, p.getD (i + 2) 0, p.getD (i + 3) 0] :=
    wordBytes_be32 ..
  rw [hbytes]
  match m, hm with
  | 0, _ | 1, _ | 2, _ | 3, _ => rfl

/-- Words packed from bytes hold those bytes: byte `j` stands in word `j / 4`. -/
theorem holdsBytes_of_words {a n : Nat} {p : List Byte} (hp : p.length = 4 * n)
    (h : ∀ k < n, s.mem.fetchWord (a + 4 * k) = .ok (be32 p (4 * k))) : s.holdsBytes a p := by
  intro j hj
  have hword := holdsBytes_wordBytes_iff.2 (h (j / 4) (by omega)) (j % 4) (Nat.mod_lt _ (by decide))
  rw [wordBytes_be32_getElem? p _ (Nat.mod_lt _ (by decide)), Nat.add_assoc, Nat.div_add_mod] at hword
  rw [hword, List.getD_eq_getElem _ _ hj, List.getElem?_eq_getElem hj]

theorem padToWord_length (bs : List Byte) : (padToWord bs).length = 4 * ((bs.length + 3) / 4) := by
  rw [padToWord, List.length_append, zeros_length]
  omega

theorem padToWord_getElem?_data {bs : List Byte} {j : Nat} (hj : j < bs.length) : (padToWord bs)[j]? = bs[j]? :=
  List.getElem?_append_left hj

theorem padToWord_getElem?_fill {bs : List Byte} {j : Nat} (hlo : bs.length ≤ j) (hhi : j < (padToWord bs).length) :
    (padToWord bs)[j]? = some 0 := by
  rw [padToWord, List.length_append, zeros_length] at hhi
  rw [padToWord, List.getElem?_append_right hlo, zeros, List.getElem?_replicate, if_pos (by omega)]

end Sys2Proof.Machine
end

section
/-! Obligations of the host's pseudo-instructions (spec/30_encoding.md section 6). -/

namespace Sys2Proof.Machine

/-- Settles O40: `wrlen` is four word writes, and LEN is its four words. -/
theorem wrlenWritesLen : Obligations.WrlenWritesLen := by
  intro s host l rest hin ho hb
  have hregs : ∀ k < 4, ∃ r, IsOperandWord r ∧ WindowReg.offset r = lenBase + 4 * k :=
    fun k hk => ⟨.len ⟨k, hk⟩, .inl ⟨_, rfl⟩, rfl⟩
  obtain ⟨t, hrun, hwords, hsame, ht, howner⟩ :=
    run_wordWrites (fun k => l.extractLsb' (32 * k) 32) hregs hin ho hb
  refine ⟨t, hrun, holdsLen_iff_words.2 fun k => hwords k k.isLt, hsame, ?_⟩
  rw [ht, howner]
  rfl

/-- Settles O41: `wrblk` is a word write for each word of the padded bytes. -/
theorem wrblkWritesBlk : Obligations.WrblkWritesBlk := by
  intro s host bs rest hlen hin ho hb
  have hregs : ∀ k < (bs.length + 3) / 4, ∃ r, IsOperandWord r ∧ WindowReg.offset r = blkBase + 4 * k :=
    fun k hk => ⟨.blkw ⟨k, by omega⟩, .inr ⟨_, rfl⟩, rfl⟩
  have hinputs : s.inputs =
      wordWrites host blkBase ((bs.length + 3) / 4) (fun k => be32 (padToWord bs) (4 * k)) ++ rest := by
    rw [hin, HostLine.accesses, List.map_map]
    rfl
  obtain ⟨t, hrun, hwords, hsame, ht, howner⟩ := run_wordWrites _ hregs hinputs ho hb
  have hpadded := padToWord_length bs
  have hbytes : t.holdsBytes blkBase (padToWord bs) := holdsBytes_of_words hpadded hwords
  refine ⟨t, hrun, fun j hj => ?data, fun j hlo hhi => ?fill, hsame, ht, fun hne => ?owner⟩
  case data => exact (hbytes j (by omega)).trans (padToWord_getElem?_data hj)
  case fill => exact (hbytes j (by omega)).trans (padToWord_getElem?_fill hlo (by omega))
  case owner =>
    have hpos := List.length_pos_iff.2 hne
    rw [howner, if_neg (by omega)]

end Sys2Proof.Machine
end

section
/-! Laws of what a command does not depend on: from two states that differ in bytes it does not read, it answers states
that differ in such bytes (R25, R60). -/

namespace Sys2Proof.Machine

variable {P : Nat → Prop} {s s' t : State} {m m' : Memory} {c : Nat} {i : Instr}

/-! ### Fetches from memories that agree -/

/-- The memories read alike at every offset in `P`. -/
def AgreeOn (P : Nat → Prop) (m m' : Memory) : Prop := ∀ x, P x → m'.read x = m.read x

theorem AgreeOn.fetchBytes_eq (h : AgreeOn P m m') {a n : Nat} (hP : ∀ x, a ≤ x → x < a + n → P x) :
    m'.fetchBytes a n = m.fetchBytes a n :=
  Memory.fetchBytes_congr fun x hlo hhi => h x (hP x hlo hhi)

theorem AgreeOn.fetchWord_eq (h : AgreeOn P m m') {a : Nat} (hP : ∀ x, a ≤ x → x < a + 4 → P x) :
    m'.fetchWord a = m.fetchWord a := by
  rw [Memory.fetchWord, Memory.fetchWord, h.fetchBytes_eq hP]

theorem AgreeOn.fetchLen_eq (h : AgreeOn P m m') (hP : ∀ x, x < 0x040 → P x) : fetchLen m' = fetchLen m := by
  have hword {a : Nat} (ha : a + 4 ≤ 0x040) : m'.fetchWord a = m.fetchWord a :=
    h.fetchWord_eq fun x _ hx => hP x (hx.trans_le ha)
  rw [fetchLen, fetchLen, hword (by decide), hword (by decide), hword (by decide), hword (by decide)]

/-! ### Answers that agree -/

/-- If the first result is a next state, so is the second, and it differs at most in bytes outside `P`. -/
def ResultsAgreeOn (P : Nat → Prop) (r r' : Result) : Prop :=
  ∀ t, r = .next t → ∃ m', r' = .next { t with mem := m' } ∧ AgreeOn P t.mem m'

theorem next_agrees (h : AgreeOn P t.mem m') : ResultsAgreeOn P (.next t) (.next { t with mem := m' }) := by
  intro u hu
  cases hu
  exact ⟨m', rfl, h⟩

theorem withLen_agrees {k k' : BitVec 128 → Result} (hlen : fetchLen m' = fetchLen s.mem)
    (hk : ∀ l, ResultsAgreeOn P (k l) (k' l)) :
    ResultsAgreeOn P (withLen s k) (withLen { s with mem := m' } k') := by
  intro t ht
  obtain ⟨l, hl, ht⟩ := withLen_next ht
  obtain ⟨m'', hm'', hagree⟩ := hk l t ht
  exact ⟨m'', by simpa [withLen, hlen, hl] using hm'', hagree⟩

theorem withBlk_agrees {k k' : List Byte → Result} (hblk : fetchBlk m' c = fetchBlk s.mem c)
    (hk : ∀ b, ResultsAgreeOn P (k b) (k' b)) :
    ResultsAgreeOn P (withBlk s c k) (withBlk { s with mem := m' } c k') := by
  intro t ht
  obtain ⟨b, hb, ht⟩ := withBlk_next ht
  obtain ⟨m'', hm'', hagree⟩ := hk b t ht
  exact ⟨m'', by simpa [withBlk, hblk, hb] using hm'', hagree⟩

section
variable (h : AgreeOn P s.mem m')
include h

theorem raised_agrees (e : ErrCode) : ResultsAgreeOn P (raised e s) (raised e { s with mem := m' }) :=
  next_agrees (t := s.raise e) h

theorem whenErrorFree_agrees {k k' : Result} (hk : ResultsAgreeOn P k k') :
    ResultsAgreeOn P (whenErrorFree s k) (whenErrorFree { s with mem := m' } k') := by
  unfold whenErrorFree
  split
  · exact hk
  · exact next_agrees h

theorem unlessReading_agrees {k k' : Result} (hk : ResultsAgreeOn P k k') :
    ResultsAgreeOn P (unlessReading s k) (unlessReading { s with mem := m' } k') := by
  unfold unlessReading
  split
  · exact raised_agrees h _
  · exact hk

theorem unlessOverlong_agrees {k k' : Result} (hk : ResultsAgreeOn P k k') :
    ResultsAgreeOn P (unlessOverlong c s k) (unlessOverlong c { s with mem := m' } k') := by
  unfold unlessOverlong
  split
  · exact raised_agrees h _
  · exact hk

theorem unlessTooLarge_agrees {l : BitVec 128} {k k' : BitVec 64 → Result}
    (hk : ∀ x, ResultsAgreeOn P (k x) (k' x)) :
    ResultsAgreeOn P (unlessTooLarge l s k) (unlessTooLarge l { s with mem := m' } k') := by
  unfold unlessTooLarge
  split
  · exact raised_agrees h _
  · exact hk _

/-! ### The commands that pad -/

theorem checkedChunk_agrees {k k' : BitVec 64 → List Byte → Result} (hlen : fetchLen m' = fetchLen s.mem)
    (hblk : fetchBlk m' c = fetchBlk s.mem c) (hk : ∀ l b, ResultsAgreeOn P (k l b) (k' l b)) :
    ResultsAgreeOn P (checkedChunk c s k) (checkedChunk c { s with mem := m' } k') :=
  whenErrorFree_agrees h <| unlessReading_agrees h <| unlessOverlong_agrees h <| withLen_agrees hlen fun _ =>
    unlessTooLarge_agrees h fun l => withBlk_agrees hblk (hk l)

theorem exec_pad_agrees (hlen : fetchLen m' = fetchLen s.mem) (hblk : fetchBlk m' c = fetchBlk s.mem c) :
    ResultsAgreeOn P (exec (.pad c) s) (exec (.pad c) { s with mem := m' }) :=
  checkedChunk_agrees h hlen hblk fun l b => next_agrees (t := s.putPadding (pad b l)) (writeBytes_agree h _ _)

theorem exec_final_agrees (hlen : fetchLen m' = fetchLen s.mem) (hblk : fetchBlk m' c = fetchBlk s.mem c) :
    ResultsAgreeOn P (exec (.final c) s) (exec (.final c) { s with mem := m' }) :=
  checkedChunk_agrees h hlen hblk fun l b =>
    next_agrees (t := (((s.setHash (compressBlocks s.hreg (pad b l))).putPadding (pad b l)).setDv false).setDrv .idle)
      (writeBytes_agree h _ _)

/-- A direct block reads the 64 bytes of BLK, the last chunk its own. -/
theorem exec_chunk_agrees (hblk : fetchBlk m' c = fetchBlk s.mem c)
    (hdirect : 64 < s.rem.toNat → fetchBlk m' 64 = fetchBlk s.mem 64) :
    ResultsAgreeOn P (exec (.chunk c) s) (exec (.chunk c) { s with mem := m' }) := by
  refine whenErrorFree_agrees h ?_
  have hdue : bytesDue { s with mem := m' } = bytesDue s := rfl
  rw [hdue]
  split
  · exact raised_agrees h _
  split
  · exact raised_agrees h _
  split
  · exact raised_agrees h _
  split
  next hrem =>
    exact withBlk_agrees (hdirect hrem) fun b =>
      next_agrees (t := (s.setHash (compress s.hreg b)).setRem (s.rem - 64)) h
  · exact withBlk_agrees hblk fun b =>
      next_agrees (t := s.finishStream (pad b s.dlen)) (writeBytes_agree (writeBytes_agree h _ _) _ _)

end

/-- The agreement of two answers, for a state given with its registers equal. -/
theorem ResultsAgreeOn.of_registers (h : ResultsAgreeOn P (exec i s) (exec i { s with mem := s'.mem }))
    (hs' : s' = { s with mem := s'.mem }) (ht : exec i s = .next t) :
    ∃ t', exec i s' = .next t' ∧ t' = { t with mem := t'.mem } ∧ ∀ x, P x → t'.mem.read x = t.mem.read x := by
  obtain ⟨m', hnext, hagree⟩ := h t ht
  exact ⟨_, (congrArg (exec i) hs').trans hnext, rfl, hagree⟩

end Sys2Proof.Machine
end

section
/-! Obligations of what a command does not depend on (spec/10_state.md, spec/20_memory.md section 9). -/

namespace Sys2Proof.Machine

/-- Settles O42: LEN lies below BLK, and the chunk is the part of BLK below CLEN. -/
theorem paddingReadsOnlyTheChunk : Obligations.PaddingReadsOnlyTheChunk := by
  intro c s s' t i hi hs' hbytes ht
  have hagree : AgreeOn (fun x => x < 0x040 + c ∨ 0x080 ≤ x) s.mem s'.mem := hbytes
  have hlen := hagree.fetchLen_eq fun x hx => .inl (hx.trans_le (Nat.le_add_right ..))
  have hblk : fetchBlk s'.mem c = fetchBlk s.mem c := hagree.fetchBytes_eq fun x _ hx => .inl hx
  obtain rfl | rfl | ⟨rfl, hrem⟩ := hi
  · exact (exec_pad_agrees hagree hlen hblk).of_registers hs' ht
  · exact (exec_final_agrees hagree hlen hblk).of_registers hs' ht
  · exact (exec_chunk_agrees hagree hblk fun hdirect => absurd hrem (Nat.not_le.2 hdirect)).of_registers hs' ht

/-- Settles O43: BLK lies above LEN. -/
theorem chunkDoesNotReadLen : Obligations.ChunkDoesNotReadLen := by
  intro c s s' t hs' hbytes ht
  have hagree : AgreeOn (fun x => x < 0x010 ∨ 0x020 ≤ x) s.mem s'.mem := hbytes
  have hblk (n : Nat) : fetchBlk s'.mem n = fetchBlk s.mem n :=
    hagree.fetchBytes_eq fun x hx _ => .inr (le_trans (by decide) hx)
  exact (exec_chunk_agrees hagree (hblk c) fun _ => hblk 64).of_registers hs' ht

end Sys2Proof.Machine
end

section
/-! Laws of a platform: its form is its bases, an event changes the one instance it is for, and what an instance does
with an input (R66, R247, R255, R270). -/

namespace Sys2Proof.Machine

variable {p p' : Platform} {e : BusEvent} {sl sl' : Slot} {k : Nat}

/-! ### The bases of a platform -/

/-- Whether a platform is well formed is a matter of its bases. -/
theorem wf_iff_bases :
    p.wf ↔ p.map Slot.base ≠ [] ∧ (∀ b ∈ p.map Slot.base, b % windowSize = 0) ∧ (p.map Slot.base).Nodup := by
  simp [Platform.wf, List.Nodup, List.pairwise_map]

theorem wf_of_bases_eq (h : p.wf) (heq : p'.map Slot.base = p.map Slot.base) : p'.wf := by
  rw [wf_iff_bases, heq]
  exact wf_iff_bases.1 h

theorem map_base_set (hk : p[k]? = some sl) (hb : sl'.base = sl.base) :
    (p.set k sl').map Slot.base = p.map Slot.base := by
  obtain ⟨hlt, rfl⟩ := List.getElem?_eq_some_iff.1 hk
  have hlt' : k < (p.map Slot.base).length := by simpa
  have hself : (p.map Slot.base).set k (p.map Slot.base)[k] = p.map Slot.base := List.set_getElem_self hlt'
  rwa [List.getElem_map, ← hb, ← List.map_set] at hself

theorem map_base_reset (bases : List Nat) : (Platform.reset bases).map Slot.base = bases := by
  simp [Platform.reset, Function.comp_def]

/-! ### One instance -/

theorem Slot.serve_access_of_recorded {f : Fault} (h : sl.fault = some f) (a : Access) :
    sl.serve (.access a) = .next sl := by
  simp [Slot.serve, h]

theorem Slot.serve_access_of_none (h : sl.fault = none) (a : Access) :
    sl.serve (.access a) = sl.record (hostAccess a sl.core) := by
  simp [Slot.serve, h]

/-- An access served by an instance with no recorded fault leads to the state of the access, or records its fault. -/
theorem Slot.serve_access_cases (h : sl.fault = none) {a : Access} (hserve : sl.serve (.access a) = .next sl') :
    (∃ t, hostAccess a sl.core = .next t ∧ sl' = ⟨sl.base, t, none⟩) ∨
      (∃ f, hostAccess a sl.core = .fault f ∧ sl' = ⟨sl.base, sl.core, some f⟩) := by
  rw [serve_access_of_none h] at hserve
  cases hacc : hostAccess a sl.core with
  | next t =>
    rw [hacc] at hserve
    cases hserve
    exact .inl ⟨t, rfl, by rw [h]⟩
  | fault f =>
    rw [hacc] at hserve
    cases hserve
    exact .inr ⟨f, rfl, rfl⟩
  | refused r => exact absurd hacc (hostAccess_not_refused a _ r)

/-! ### One event -/

theorem selects_access_iff {a : BusAccess} {base : Nat} :
    (BusEvent.access a).selects base = true ↔ base ≤ a.addr ∧ a.addr < base + windowSize :=
  decide_eq_true_iff

theorem selects_reset_self (base : Nat) : (BusEvent.reset base).selects base = true := beq_self_eq_true base

/-- An event for the instance at `k` is served there and changes nothing else. -/
theorem serve_eq_set (hp : p.wf) (hk : p[k]? = some sl) (hs : e.selects sl.base = true) :
    ∃ sl', sl.serve (e.atBase sl.base) = .next sl' ∧ sl'.base = sl.base ∧ p.serve e = .next (p.set k sl') :=
  Platform.serve_at hp.2.1 hp.2.2 hk hs

/-- An event that completes was served by one instance. -/
theorem serve_next_eq_set (hp : p.wf) (h : p.serve e = .next p') :
    ∃ (k : Nat) (sl sl' : Slot), p[k]? = some sl ∧ e.selects sl.base = true ∧
      sl.serve (e.atBase sl.base) = .next sl' ∧ sl'.base = sl.base ∧ p' = p.set k sl' := by
  obtain ⟨k, sl, hk, hs⟩ := Platform.serve_next h
  obtain ⟨sl', hserve, hb, hset⟩ := serve_eq_set hp hk hs
  cases h.symm.trans hset
  exact ⟨k, sl, sl', hk, hs, hserve, hb, rfl⟩

theorem getElem?_set_of_some (hk : p[k]? = some sl) (sl' : Slot) : (p.set k sl')[k]? = some sl' :=
  List.getElem?_set_self (List.getElem?_eq_some_iff.1 hk).1

theorem getElem?_set_other {j : Nat} (hj : j ≠ k) (sl' : Slot) : (p.set k sl')[j]? = p[j]? :=
  List.getElem?_set_ne hj.symm

/-! ### Many events -/

theorem run_cons_next {es : List BusEvent} (h : Platform.run (e :: es) p = .next p') :
    ∃ p₁, p.serve e = .next p₁ ∧ Platform.run es p₁ = .next p' := by
  unfold Platform.run at h
  split at h
  · exact ⟨_, ‹_›, h⟩
  all_goals cases h

/-- What one event does to the instance at `k`: it serves the event if it is for it, and else stays as it is. -/
theorem serve_next_at (hp : p.wf) (h : p.serve e = .next p') (hk : p[k]? = some sl) :
    ∃ sl', p'[k]? = some sl' ∧ sl'.base = sl.base ∧
      if e.selects sl.base then sl.serve (e.atBase sl.base) = .next sl' else sl' = sl := by
  obtain ⟨j, sj, sj', hj, hs, hserve, hb, rfl⟩ := serve_next_eq_set hp h
  by_cases hjk : k = j
  · subst hjk
    cases hk.symm.trans hj
    exact ⟨sj', getElem?_set_of_some hj sj', hb, by rw [if_pos hs]; exact hserve⟩
  · have hmiss := Platform.selects_only hp.2.1 hp.2.2 hj hs k sl hjk hk
    exact ⟨sl, (getElem?_set_other hjk sj').trans hk, rfl, by simp [hmiss]⟩

theorem serve_next_wf (hp : p.wf) (h : p.serve e = .next p') : p'.wf := by
  obtain ⟨k, sl, sl', hk, -, -, hb, rfl⟩ := serve_next_eq_set hp h
  exact wf_of_bases_eq hp (map_base_set hk hb)

/-- The inputs of the instance at `base` among the events, in their order. -/
def inputsAt (base : Nat) (es : List BusEvent) : List Input :=
  (es.filter fun e => e.selects base).map fun e => e.atBase base

theorem run_next_at {es : List BusEvent} (hp : p.wf) (h : Platform.run es p = .next p') (hk : p[k]? = some sl) :
    ∃ sl', p'[k]? = some sl' ∧ Slot.run (inputsAt sl.base es) sl = .next sl' := by
  induction es generalizing p sl with
  | nil =>
    cases h
    exact ⟨sl, hk, rfl⟩
  | cons e es ih =>
    obtain ⟨p₁, hserve, hrun⟩ := run_cons_next h
    obtain ⟨sl₁, hk₁, hb, hstep⟩ := serve_next_at hp hserve hk
    obtain ⟨sl', hk', hrest⟩ := ih (serve_next_wf hp hserve) hrun hk₁
    rw [hb] at hrest
    refine ⟨sl', hk', ?_⟩
    by_cases hs : e.selects sl.base = true
    · rw [if_pos hs] at hstep
      simpa [inputsAt, hs, Slot.run, hstep] using hrest
    · rw [if_neg hs] at hstep
      subst hstep
      simpa [inputsAt, hs] using hrest

end Sys2Proof.Machine
end

section
/-! Obligations of several instances (spec/20_memory.md section 6, spec/60_exceptions.md section 6). -/

namespace Sys2Proof.Machine

/-- Settles O49: an access is served by the one instance that it selects, and `Slot.serve` says how. -/
theorem instancesAreIndependent : Obligations.InstancesAreIndependent := by
  refine fun a p hp => ⟨fun p' h => ?only, fun k sl hk hlo hhi => ?served⟩
  case only =>
    obtain ⟨k, sl, sl', hk, hs, -, hb, rfl⟩ := serve_next_eq_set hp h
    obtain ⟨hlo, hhi⟩ := selects_access_iff.1 hs
    refine ⟨map_base_set hk hb, k, sl, sl', hk, hlo, hhi, getElem?_set_of_some hk sl',
      fun j hj => getElem?_set_other hj sl', fun j sl'' hj hsl'' hin => ?_⟩
    have hmiss := Platform.selects_only hp.2.1 hp.2.2 hk hs j sl'' hj hsl''
    exact absurd (selects_access_iff.2 hin) (Bool.eq_false_iff.1 hmiss)
  case served =>
    obtain ⟨sl', hserve, -, hset⟩ := serve_eq_set hp hk (selects_access_iff.2 ⟨hlo, hhi⟩)
    refine ⟨_, sl', hset, getElem?_set_of_some hk sl', fun f hf => ?_, fun hf => Slot.serve_access_cases hf hserve⟩
    cases hserve.symm.trans (Slot.serve_access_of_recorded hf _)
    rfl

/-- Settles O50: the bases by `map_base_reset`, the reset of one instance by `serve_eq_set`. -/
theorem instancesStartAtReset : Obligations.InstancesStartAtReset := by
  refine ⟨fun bases => ⟨map_base_reset bases, fun sl hsl => ?start, fun hne haligned hnodup => ?wf⟩,
    fun p k sl hp hk => ?reset⟩
  case start =>
    obtain ⟨b, -, rfl⟩ := List.mem_map.1 hsl
    exact ⟨rfl, rfl⟩
  case wf =>
    rw [wf_iff_bases, map_base_reset]
    exact ⟨hne, haligned, hnodup⟩
  case reset =>
    obtain ⟨sl', hserve, hb, hset⟩ := serve_eq_set hp hk (selects_reset_self sl.base)
    cases hserve
    exact ⟨_, _, hset, getElem?_set_of_some hk _, fun j hj => getElem?_set_other hj _, rfl, rfl, rfl⟩

/-- Settles O51, by induction on the events (`run_next_at`). -/
theorem instanceSeesOnlyItsEvents : Obligations.InstanceSeesOnlyItsEvents := fun _ _ _ hp h _ _ hk =>
  run_next_at hp h hk

end Sys2Proof.Machine
end

section
/-! Laws of a stream and its chunks: their number and lengths, the padded message as whole blocks before the padding of
the rest, and what the commands leave that hash them (R166, R191, R197). -/

namespace Sys2Proof.Machine

variable {s t : State} {m : List Byte} {l : BitVec 64} {q : Nat}

/-! ### Blocks of a stream -/

theorem blk_length (m : List Byte) (j : Nat) : (blk m j).length = min 64 (m.length - 64 * j) := by
  simp [blk]

theorem blk_zero_of_le (h : m.length ≤ 64) : blk m 0 = m := List.take_of_length_le h

theorem blk_succ (m : List Byte) (j : Nat) : blk m (j + 1) = blk (m.drop 64) j := by
  rw [blk, blk, List.drop_drop, Nat.mul_succ, Nat.add_comm]

/-- The first `q` blocks are the first 64q bytes. -/
theorem flatten_blocks (m : List Byte) (q : Nat) : ((List.range q).map (blk m)).flatten = m.take (64 * q) := by
  induction q with
  | zero => rfl
  | succ q ih =>
    rw [List.range_succ, List.map_append, List.flatten_append, ih, Nat.mul_succ, List.take_add]
    simp [blk]

/-- Whole blocks are the same in the part of the stream that they make up. -/
theorem blk_take {j : Nat} (hj : j < q) : blk (m.take (64 * q)) j = blk m j := by
  rw [blk, blk, List.drop_take, List.take_take, Nat.min_eq_left (by omega)]

/-! ### The chunks of a stream (R191) -/

theorem chunksOf_length (m : List Byte) : (chunksOf m).length = max 1 ((m.length + 63) / 64) := by
  simp [chunksOf]

theorem chunksOf_getElem? {j : Nat} (hj : j < (chunksOf m).length) : (chunksOf m)[j]? = some (blk m j) := by
  rw [chunksOf_length] at hj
  rw [chunksOf, List.getElem?_map, List.getElem?_range hj, Option.map_some]

theorem flatten_chunksOf (m : List Byte) : (chunksOf m).flatten = m := by
  rw [chunksOf, flatten_blocks, List.take_of_length_le (by omega)]

theorem chunksOf_of_le (h : m.length ≤ 64) : chunksOf m = [m] := by
  have hone : max 1 ((m.length + 63) / 64) = 1 := by omega
  rw [chunksOf, hone, List.range_one, List.map_singleton, blk_zero_of_le h]

theorem chunksOf_of_lt (h : 64 < m.length) : chunksOf m = m.take 64 :: chunksOf (m.drop 64) := by
  have hcount : max 1 ((m.length + 63) / 64) = max 1 (((m.drop 64).length + 63) / 64) + 1 := by
    rw [List.length_drop]
    omega
  have hrest : blk m ∘ Nat.succ = blk (m.drop 64) := funext (blk_succ m)
  rw [chunksOf, hcount, List.range_succ_eq_map, List.map_cons, List.map_map, hrest]
  rfl

/-! ### The padded message (R197) -/

/-- The padding of a stream follows its whole blocks: they do not change the zero count. -/
theorem pad_eq_take_append (l : BitVec 64) (hq : 64 * q ≤ m.length) :
    pad m l = m.take (64 * q) ++ pad (m.drop (64 * q)) l := by
  have hfill : zeroFill (m.drop (64 * q)).length = zeroFill m.length := by
    have hm := zeroFill_cast m.length
    have hd := zeroFill_cast (m.drop (64 * q)).length
    rw [List.length_drop] at hd ⊢
    omega
  rw [pad, pad, hfill]
  simp only [← List.append_assoc, List.take_append_drop]

/-- Compressing a padded stream compresses its whole blocks, then the padding of the rest. -/
theorem compressBlocks_pad_split (h : HashState) (l : BitVec 64) (hq : 64 * q ≤ m.length) :
    compressBlocks h (pad m l) =
      compressBlocks (((List.range q).map (blk m)).foldl compress h) (pad (m.drop (64 * q)) l) := by
  have hblocks : (List.range q).foldl (fun h j => compress h (blk (m.take (64 * q)) j)) h =
      ((List.range q).map (blk m)).foldl compress h := by
    rw [List.foldl_map]
    exact List.foldl_ext _ _ _ fun a j hj => by rw [blk_take (List.mem_range.1 hj)]
  rw [pad_eq_take_append l hq, compressBlocks_append h _ (by rw [List.length_take, Nat.min_eq_left hq]), hblocks]

theorem paddedMessage_eq_pad (m : List Byte) : paddedMessage m = pad m (BitVec.ofNat 64 (8 * m.length)) := rfl

theorem paddedMessage_length (m : List Byte) : (paddedMessage m).length = 64 * ((m.length + 9 + 63) / 64) := by
  have hfill := zeroFill_cast m.length
  rw [paddedMessage_eq_pad, pad_length]
  omega

/-! ### The driver's run over a stream (R193 to R195) -/

theorem giveChunks_cons {chunk : List Byte} {rest : List (List Byte)} (h : giveChunk chunk s = .next t) :
    giveChunks (chunk :: rest) s = giveChunks rest t := by
  simp [giveChunks, h]

/-- In READ with as many bytes due as the stream has, its chunks complete and leave the hash state that compressing the
padded stream gives: by the length of the stream, a direct block at a time. -/
theorem giveChunks_completes {m : List Byte} {s : State} (he : s.err = .none) (hd : s.drv = .read)
    (hrem : s.rem.toNat = m.length) :
    ∃ t, giveChunks (chunksOf m) s = .next t ∧ t.completed ∧ t.rem = 0 ∧
      t.hreg = compressBlocks s.hreg (pad m s.dlen) ∧ t.holdsDigest t.hreg := by
  obtain hle | hlt := le_or_gt m.length 64
  · have hlast : giveChunk m s = .next ((s.store blkBase m).finishStream (pad m s.dlen)) :=
      exec_chunk_of_lastBlk (s := s.store blkBase m) he hd (hrem ▸ (Nat.min_eq_right hle).symm) rfl
        (store_holds s blkBase m) (hrem.trans_le hle)
    obtain ⟨-, -, hdigest, -⟩ := finishStream_buffers (s.store blkBase m) (pad_length_eq_or hle s.dlen)
    rw [chunksOf_of_le hle, giveChunks_cons hlast]
    exact ⟨_, rfl, ⟨rfl, he, rfl⟩, rfl, rfl, hdigest⟩
  · have hlen : (m.take 64).length = 64 := by rw [List.length_take, Nat.min_eq_left hlt.le]
    have hdue : (m.take 64).length = bytesDue (s.store blkBase (m.take 64)) :=
      hlen.trans (Nat.min_eq_left (hrem ▸ hlt.le)).symm
    have hdirect := exec_chunk_of_directBlk (s := s.store blkBase (m.take 64)) he hd hdue rfl
      (store_holds s blkBase (m.take 64)) (hlt.trans_eq hrem.symm)
    have hrest : (BitVec.ofNat 64 (s.rem.toNat - 64)).toNat = (m.drop 64).length := by
      have hbound := s.rem.isLt
      rw [BitVec.toNat_ofNat, List.length_drop]
      omega
    rw [chunksOf_of_lt hlt, giveChunks_cons hdirect, compressBlocks_pad_split (q := 1) _ _ hlt.le]
    exact giveChunks_completes he hd hrest
termination_by m.length
decreasing_by
  rw [List.length_drop]
  omega

/-! ### The incremental path (R166) -/

theorem holdsLen_of_same {len : BitVec 128} (h : s.holdsLen len)
    (hsame : ∀ x, x < 0x040 → t.mem.read x = s.mem.read x) : t.holdsLen len := fun k hk j hj => by
  rw [wordBytes_length] at hj
  rw [hsame _ (by omega)]
  exact h k hk j hj

/-- A write of BLK leaves LEN. -/
theorem holdsLen_store_blk {len : BitVec 128} (h : s.holdsLen len) (bs : List Byte) :
    (s.store blkBase bs).holdsLen len :=
  holdsLen_of_same h fun x hx => store_same s rfl x (.inl hx)

/-- Compressing full blocks completes, and leaves the driver out of READ and LEN as it was. -/
theorem giveBlocks_completes {len : BitVec 128} (blocks : List (List Byte)) (hfull : ∀ b ∈ blocks, b.length = 64)
    (he : s.err = .none) (hd : s.drv ≠ .read) (hl : s.holdsLen len) :
    ∃ t, giveBlocks blocks s = .next t ∧ t.hreg = blocks.foldl compress s.hreg ∧ t.err = .none ∧ t.drv ≠ .read ∧
      t.holdsLen len := by
  induction blocks generalizing s with
  | nil => exact ⟨s, rfl, rfl, he, hd, hl⟩
  | cons b blocks ih =>
    have hcompress : exec .compress (s.store blkBase b) = .next ((s.store blkBase b).compressBlk b) := by
      rw [exec_compress_of_admitted (s := s.store blkBase b) he hd, ← hfull b (List.mem_cons_self ..)]
      exact withBlk_of_holds (store_holds s blkBase b)
    have hstep : giveBlocks (b :: blocks) s = giveBlocks blocks ((s.store blkBase b).compressBlk b) := by
      simp [giveBlocks, hcompress]
    rw [hstep]
    exact ih (s := (s.store blkBase b).compressBlk b) (fun x hx => hfull x (List.mem_cons_of_mem b hx)) he nofun
      (holdsLen_store_blk hl b)

theorem exec_init_completes (s : State) :
    ∃ t, exec .init s = .next t ∧ t.hreg = initialHash ∧ t.err = .none ∧ t.drv = .idle ∧ t.mem = s.mem :=
  ⟨_, exec_init s, rfl, rfl, rfl, rfl⟩

/-- FINAL on a chunk just written to BLK completes, and compresses its padding. -/
theorem exec_final_completes {len : BitVec 128} {chunk : List Byte} (he : s.err = .none) (hd : s.drv ≠ .read)
    (hl : s.holdsLen len) (hfit : len.toNat < 2 ^ 64) (hc : chunk.length ≤ 64) :
    ∃ t, exec (.final chunk.length) (s.store blkBase chunk) = .next t ∧
      t.hreg = compressBlocks s.hreg (pad chunk (len.setWidth 64)) ∧ t.err = .none ∧ t.drv ≠ .read := by
  rw [exec_final, checkedChunk_of_holdsBlk (s := s.store blkBase chunk) he hd hc (holdsLen_store_blk hl chunk) hfit rfl
    (store_holds s blkBase chunk)]
  exact ⟨_, rfl, rfl, he, nofun⟩

/-- The low 64 bits of LEN as the spec writes them (R197). -/
theorem setWidth_eq_ofNat (len : BitVec 128) : len.setWidth 64 = BitVec.ofNat 64 len.toNat :=
  BitVec.eq_of_toNat_eq ((BitVec.toNat_setWidth ..).trans (BitVec.toNat_ofNat ..).symm)

end Sys2Proof.Machine
end

section
/-! Obligations of hashing (spec/42_compression.md section 5, spec/43_block_driver.md sections 1 and 4). -/

namespace Sys2Proof.Machine

/-- Settles O46: each chunk is a block of the stream, of the length `blk_length` says. -/
theorem chunkAndBlockCounts : Obligations.ChunkAndBlockCounts := by
  intro m
  have hcount := chunksOf_length m
  have hlast : (chunksOf m).getLast? = some (blk m ((chunksOf m).length - 1)) := by
    rw [List.getLast?_eq_getElem?, chunksOf_getElem? (by omega)]
  have hlen := blk_length m ((chunksOf m).length - 1)
  refine ⟨hcount, flatten_chunksOf m, fun j hj => ?full, _, hlast, by omega, by omega, paddedMessage_length m, ?blocks⟩
  case full =>
    rw [chunksOf_getElem? (by omega), Option.map_some, blk_length, Nat.min_eq_left (by omega)]
  case blocks =>
    split <;> omega

/-- Settles O47: START by `exec_start_of_wholeBytes`, the chunks by `giveChunks_completes`. -/
theorem driverHashesStream : Obligations.DriverHashesStream := by
  intro m s l hbound he hd hl hlen
  have hfit : l.toNat < 2 ^ 64 := hlen.trans_lt hbound
  have hrem : (l.setWidth 64 >>> 3).toNat = m.length := by
    rw [BitVec.toNat_ushiftRight, setWidth_toNat_of_lt hfit, Nat.shiftRight_eq_div_pow]
    omega
  obtain ⟨t, hgive, hcompleted, hzero, hhash, hdigest⟩ :=
    giveChunks_completes (s := s.beginStream (l.setWidth 64)) he rfl hrem
  have hdlen : (s.beginStream (l.setWidth 64)).dlen = BitVec.ofNat 64 (8 * m.length) := hlen ▸ setWidth_eq_ofNat l
  rw [hdlen] at hhash
  exact ⟨_, t, exec_start_of_wholeBytes he hd hl hfit (by omega), hgive, hcompleted, hzero, hhash, hdigest⟩

/-- Settles O48: the whole blocks by `giveBlocks_completes`, the rest by `exec_final_completes`, and together they are
the padded message (`compressBlocks_pad_split`). -/
theorem incrementalHashesMessage : Obligations.IncrementalHashesMessage := by
  intro m q s l hbound hlo hhi hl hlen
  have hfull : ∀ b ∈ (List.range q).map (blk m), b.length = 64 := by
    intro b hb
    obtain ⟨j, hj, rfl⟩ := List.mem_map.1 hb
    have hjq := List.mem_range.1 hj
    rw [blk_length, Nat.min_eq_left (by omega)]
  have hrest : (m.drop (64 * q)).length = m.length - 64 * q := List.length_drop ..
  obtain ⟨t₀, hinit, hstart, he₀, hd₀, hmem⟩ := exec_init_completes s
  obtain ⟨t₁, hgive, hblocks, he₁, hd₁, hl₁⟩ :=
    giveBlocks_completes _ hfull he₀ (by simp [hd₀]) (holdsLen_of_same hl fun x _ => by rw [hmem])
  obtain ⟨t₂, hfinal, hhash, he₂, hd₂⟩ :=
    exec_final_completes (chunk := m.drop (64 * q)) he₁ hd₁ hl₁ (hlen.trans_lt hbound) (by omega)
  have hmessage : t₂.hreg = messageHash m := by
    rw [hhash, hblocks, hstart, ← compressBlocks_pad_split _ _ hlo, setWidth_eq_ofNat, hlen]
    rfl
  exact ⟨t₀, t₁, t₂, _, hinit, hgive, hrest ▸ hfinal, exec_format_of_admitted he₂ hd₂, hmessage, rfl, he₂,
    hmessage ▸ (putDigest_buffers t₂ t₂.hreg).1⟩

end Sys2Proof.Machine
end
